-- ==== Sys2Proof/Word.lean ====
section
/-! DEFINITION. The word types of the TLVCRC16 block (00_scope.md R9, R12): a character is one byte, a tag is two
characters, a command word and every host-visible register are 32 bits. Nothing here is signed. -/

namespace Sys2Proof

/-- One data character: 8 bits, every value accepted as data (00_scope.md R10). -/
abbrev Byte := BitVec 8

/-- A two-character tag, first character in bits 15:8, second in bits 7:0 (20_memory.md R58 (b)). -/
abbrev Tag := BitVec 16

/-- The CRC register's width (00_scope.md R8, `CRC_WIDTH`). -/
abbrev Crc := BitVec 16

/-- A command word or a host-visible register: 32 bits (00_scope.md R12). -/
abbrev Word := BitVec 32

end Sys2Proof
end

