-- ==== Sys2Proof/Syntax.lean ====
section
/-! DEFINITION. The command set: one constructor for each row of spec/opcode_table.json (30_encoding.md R73), with the
operand its form gives it (R71): none, one byte, or a two-character tag. -/

namespace Sys2Proof

/-- The eleven commands, in the order of their opcodes (30_encoding.md R73). -/
inductive Instr where
  | nop
  | clear
  | crcInit
  | crcByte (b : Byte)
  | crcEmit
  | fldOpen (t : Tag)
  | fldByte (b : Byte)
  | fldClose
  | cmpOpen (t : Tag)
  | cmpClose
  | outByte (b : Byte)
  deriving DecidableEq, Repr

end Sys2Proof
end

