-- ==== Sys2Proof/WellFormed.lean ====
section
/-! DEFINITION. Well-formedness. A command's operand has exactly the width of its field (30_encoding.md R71, R72), so
every term of `Instr` passes its check; the checks that can fail are those of the assembler's operands (R77). -/

namespace Sys2Proof

/-- Each operand fits the field its form gives it (30_encoding.md R71). Whether a tag's characters are digits is not a
matter of form: the command itself checks it when it executes (41_tlv.md R122). -/
def Instr.wellFormed : Instr → Bool
  | .nop => true
  | .clear => true
  | .crcInit => true
  | .crcByte b => b.toNat < 2 ^ 8
  | .crcEmit => true
  | .fldOpen t => t.toNat < 2 ^ 16
  | .fldByte b => b.toNat < 2 ^ 8
  | .fldClose => true
  | .cmpOpen t => t.toNat < 2 ^ 16
  | .cmpClose => true
  | .outByte b => b.toNat < 2 ^ 8

/-- A byte operand written as a number is 0 to 255 (30_encoding.md R77). -/
def byteNumber (n : Nat) : Bool := n ≤ 255

/-- A character a string literal may hold: 0x20 to 0x7E, but not the double quote 0x22 (30_encoding.md R77). -/
def literalChar (c : Char) : Bool := 0x20 ≤ c.toNat && c.toNat ≤ 0x7E && c.toNat != 0x22

/-- A string literal's text (30_encoding.md R77). -/
def stringLiteral (cs : List Char) : Bool := cs.all literalChar

/-- A tag operand's text: a string literal of exactly two characters (30_encoding.md R77). -/
def tagLiteral (cs : List Char) : Bool := cs.length == 2 && stringLiteral cs

end Sys2Proof
end

