-- ==== Sys2Proof/Decode.lean ====
section
/-! DEFINITION. The command word (30_encoding.md R70 to R75): the decoder of R74, total on every 32-bit word, the encoder
written from the same map, and the opcode map itself as a table of match and mask. -/

namespace Sys2Proof

/-- Why a word is `Illegal` (30_encoding.md R75): its OP is 0xB to 0xF, or a bit its form requires to be zero is set. -/
inductive DecodeError where
  | reservedOpcode
  | reservedBits
  deriving DecidableEq, Repr

/-- `OP = w[31:28]` (30_encoding.md R71). -/
def opcodeField (w : Word) : BitVec 4 := w.extractLsb' 28 4

/-- Form N: `w[27:0]` must be zero (30_encoding.md R74). -/
def decodeN (w : Word) (i : Instr) : Except DecodeError Instr :=
  if w.extractLsb' 0 28 = 0 then .ok i else .error .reservedBits

/-- Form B: `w[27:8]` must be zero and `B = w[7:0]` (30_encoding.md R74). -/
def decodeB (w : Word) (i : Byte → Instr) : Except DecodeError Instr :=
  if w.extractLsb' 8 20 = 0 then .ok (i (w.extractLsb' 0 8)) else .error .reservedBits

/-- Form T: `w[27:16]` must be zero and `T = w[15:0]` (30_encoding.md R74). -/
def decodeT (w : Word) (i : Tag → Instr) : Except DecodeError Instr :=
  if w.extractLsb' 16 12 = 0 then .ok (i (w.extractLsb' 0 16)) else .error .reservedBits

/-- `Decode(w)` (30_encoding.md R74); either error is the spec's `Illegal`. It looks at no state. -/
def decode (w : Word) : Except DecodeError Instr :=
  match (opcodeField w).toNat with
  | 0x0 => decodeN w .nop
  | 0x1 => decodeN w .clear
  | 0x2 => decodeN w .crcInit
  | 0x3 => decodeB w .crcByte
  | 0x4 => decodeN w .crcEmit
  | 0x5 => decodeT w .fldOpen
  | 0x6 => decodeB w .fldByte
  | 0x7 => decodeN w .fldClose
  | 0x8 => decodeT w .cmpOpen
  | 0x9 => decodeN w .cmpClose
  | 0xA => decodeB w .outByte
  | _ => .error .reservedOpcode

/-- A form N word: OP in bits 31:28 and nothing else (30_encoding.md R71). -/
def wordN (op : BitVec 4) : Word := op.setWidth 32 <<< 28

/-- A form B word: OP, and the byte in bits 7:0 (30_encoding.md R71). -/
def wordB (op : BitVec 4) (b : Byte) : Word := wordN op ||| b.setWidth 32

/-- A form T word: OP, and the tag in bits 15:0 (30_encoding.md R71, R72). -/
def wordT (op : BitVec 4) (t : Tag) : Word := wordN op ||| t.setWidth 32

/-- The command word of an instruction, from the opcode map (30_encoding.md R73). -/
def encode : Instr → Word
  | .nop => wordN 0x0
  | .clear => wordN 0x1
  | .crcInit => wordN 0x2
  | .crcByte b => wordB 0x3 b
  | .crcEmit => wordN 0x4
  | .fldOpen t => wordT 0x5 t
  | .fldByte b => wordB 0x6 b
  | .fldClose => wordN 0x7
  | .cmpOpen t => wordT 0x8 t
  | .cmpClose => wordN 0x9
  | .outByte b => wordB 0xA b

/-- One row of the opcode map: it selects the words `w` with `w & mask = match` (30_encoding.md R73). -/
structure OpcodeRow where
  pattern : Word
  mask : Word
  deriving DecidableEq, Repr

/-- The row selects the word (30_encoding.md R73). -/
def rowSelects (r : OpcodeRow) (w : Word) : Bool := w &&& r.mask == r.pattern

/-- The row of an instruction, its numbers as the table of 30_encoding.md R73 writes them. -/
def rowOf : Instr → OpcodeRow
  | .nop => ⟨0x00000000, 0xFFFFFFFF⟩
  | .clear => ⟨0x10000000, 0xFFFFFFFF⟩
  | .crcInit => ⟨0x20000000, 0xFFFFFFFF⟩
  | .crcByte _ => ⟨0x30000000, 0xFFFFFF00⟩
  | .crcEmit => ⟨0x40000000, 0xFFFFFFFF⟩
  | .fldOpen _ => ⟨0x50000000, 0xFFFF0000⟩
  | .fldByte _ => ⟨0x60000000, 0xFFFFFF00⟩
  | .fldClose => ⟨0x70000000, 0xFFFFFFFF⟩
  | .cmpOpen _ => ⟨0x80000000, 0xFFFF0000⟩
  | .cmpClose => ⟨0x90000000, 0xFFFFFFFF⟩
  | .outByte _ => ⟨0xA0000000, 0xFFFFFF00⟩

/-- The eleven rows of 30_encoding.md R73, in the table's order (an operand plays no part in a row). -/
def opcodeRows : List OpcodeRow :=
  [rowOf .nop, rowOf .clear, rowOf .crcInit, rowOf (.crcByte 0), rowOf .crcEmit, rowOf (.fldOpen 0),
    rowOf (.fldByte 0), rowOf .fldClose, rowOf (.cmpOpen 0), rowOf .cmpClose, rowOf (.outByte 0)]

/-- The instruction the decoder reads from an instruction whose bits are `w`, numbered as the opcode table numbers them.
A command is one 32-bit word (30_encoding.md R70), so a bit at 32 or above makes it no instruction. -/
def decodeTableWord (nbits w : Nat) : Option Instr :=
  let v := w % 2 ^ nbits
  if v < 2 ^ 32 then
    match decode (BitVec.ofNat 32 v) with
    | .ok i => some i
    | .error _ => none
  else none

end Sys2Proof
end

