-- ==== Sys2Proof/Machine/Access.lean ====
section
/-! DEFINITION. What crosses the block's register port: the accesses a bus master issues, the hardware reset input, and
the responses the host gets (20_memory.md R50 to R52, 60_exceptions.md R209, 70_reset_and_hazards.md R230, R236). -/

namespace Sys2Proof.Machine

/-- An offset into the register window: 0x2000 bytes, hence 13 bits (20_memory.md R50). -/
abbrev Offset := BitVec 13

/-- Who issues an access. Each instance serves exactly one host (60_exceptions.md R215); `other` is any second one. -/
inductive Master where
  | host
  | other
  deriving DecidableEq, Repr

/-- One access to the window, `width` in bytes (20_memory.md R52: `MemRead(BASE+a, n)`, `MemWrite(BASE+a, n, v)`). -/
inductive Access where
  | read (offset : Offset) (width : Nat)
  | write (offset : Offset) (width : Nat) (value : Word)
  deriving DecidableEq, Repr

/-- One event at the block's port. `reset pending` is the hardware reset input asserted (70_reset_and_hazards.md R230);
`pending` is the access that was executing or waiting at that moment, if any (R236). -/
inductive BusEvent where
  | access (master : Master) (a : Access)
  | reset (pending : Option Access)
  deriving DecidableEq, Repr

/-- The response to the host's last access: `quiet` before the first one, `done` for an accepted CMD write, `data` for an
accepted read, `busError` for an access refused by 20_memory.md R52 (60_exceptions.md R209). -/
inductive Response where
  | quiet
  | done
  | data (value : Word)
  | busError
  deriving DecidableEq, Repr, Inhabited

end Sys2Proof.Machine
end

