-- ==== Sys2Proof/Config.lean ====
section
/-! DEFINITION. The implementation parameters of 00_scope.md R8 and the open parameters of 92_eei_decisions.md. A
parameter the spec leaves to the platform or to nobody is an opaque constant: no proof can see its value. -/

namespace Sys2Proof.Config

/-- `CRC_POLY` (00_scope.md R8). -/
def crcPoly : Crc := 0x1021

/-- `CRC_INIT` (00_scope.md R8). -/
def crcInit : Crc := 0xFFFF

/-- `MAX_VALUE` and `MAX_COMPOSITE`: a field's value holds at most 99 characters (00_scope.md R8). -/
def maxValue : Nat := 99

/-- `OUT_CAP` at its default (00_scope.md R8, decision D9). DESIGN CHOICE (log 2): unsafe for a block built with another
capacity. -/
def outCap : Nat := 1024

/-- Size of the register window in bytes (20_memory.md R50). -/
def windowBytes : Nat := 0x2000

/-- The platform's free choice behind `BASE` (20_memory.md R50). DESIGN CHOICE (log 1), safe. -/
opaque baseIndex : Nat

/-- `BASE`, aligned to 0x2000 (20_memory.md R50). -/
def base : Nat := windowBytes * baseIndex

/-- The cycles a command takes beyond the first (70_reset_and_hazards.md R240). Log 11, safe: no rule reads it. -/
opaque extraCycles : Word → Nat

/-- `CYCLES(w) ≥ 1` (70_reset_and_hazards.md R240). -/
def cycles (w : Word) : Nat := 1 + extraCycles w

/-- Free value: the response to the access lost when reset is asserted (70_reset_and_hazards.md R236,
93_implementation_defined.md I18), one for each use counted by `State.drawn`. Log 5, safe. -/
opaque lostResponse : Nat → Machine.Response

/-- Free value: the two characters of a length of 100 or more, which 41_tlv.md R121 does not define and no reachable
state renders. Log 10, safe. -/
opaque dec2Beyond : Nat → Byte × Byte

end Sys2Proof.Config
end

