-- ==== Sys2Proof/Machine/Operands.lean ====
section
/-! DEFINITION. Operand forms and the pure functions over them: a tag's two characters and its digit check, the
hexadecimal and decimal renderings, the encoding of a field, and the CRC's update. -/

namespace Sys2Proof.Machine

/-- First tag character, `T0 = t[15:8]` (30_encoding.md R71, R72). -/
def tagFirst (t : Tag) : Byte := t.extractLsb' 8 8

/-- Second tag character, `T1 = t[7:0]` (30_encoding.md R71, R72). -/
def tagSecond (t : Tag) : Byte := t.extractLsb' 0 8

/-- The tag of two characters, `T = T0 || T1` (30_encoding.md R72). -/
def tagOf (t0 t1 : Byte) : Tag := t0.setWidth 16 <<< 8 ||| t1.setWidth 16

/-- An ASCII decimal digit, 0x30 to 0x39 (41_tlv.md R122). -/
def isDigit (b : Byte) : Bool := 0x30 ≤ b.toNat && b.toNat ≤ 0x39

/-- `IsDigitTag(t)` (41_tlv.md R122). -/
def isDigitTag (t : Tag) : Bool := isDigit (tagFirst t) && isDigit (tagSecond t)

/-- `Dec2(n)`, tens digit first (41_tlv.md R121). From 100 on the rule defines nothing: a free value (log 10). -/
def dec2 (n : Nat) : List Byte :=
  if n ≤ Config.maxValue then [BitVec.ofNat 8 (0x30 + n / 10), BitVec.ofNat 8 (0x30 + n % 10)]
  else [(Config.dec2Beyond n).1, (Config.dec2Beyond n).2]

/-- `Enc(t, v) = [t[15:8], t[7:0]] ++ Dec2(n) ++ v` (41_tlv.md R121). -/
def enc (t : Tag) (v : List Byte) : List Byte := [tagFirst t, tagSecond t] ++ dec2 v.length ++ v

/-- `HexChar(n)`, uppercase (40_crc.md R102). -/
def hexChar (n : BitVec 4) : Byte :=
  if n.toNat ≤ 9 then BitVec.ofNat 8 (0x30 + n.toNat) else BitVec.ofNat 8 (0x41 + (n.toNat - 10))

/-- `Hex(c)`: four characters, most significant nibble first (40_crc.md R103). -/
def hex (c : Crc) : List Byte :=
  [hexChar (c.extractLsb' 12 4), hexChar (c.extractLsb' 8 4), hexChar (c.extractLsb' 4 4),
    hexChar (c.extractLsb' 0 4)]

/-- One of the eight shifts of `CrcStep`: out of position 15, with the polynomial when a 1 leaves (40_crc.md R101). -/
def crcShift (r : Crc) : Crc := if r.msb then (r <<< 1) ^^^ Config.crcPoly else r <<< 1

/-- `k` shifts in a row. -/
def crcShifts : Nat → Crc → Crc
  | 0, r => r
  | k + 1, r => crcShifts k (crcShift r)

/-- `CrcStep(c, b)`: XOR the byte into bits 15:8, then eight shifts (40_crc.md R101). -/
def crcStep (c : Crc) (b : Byte) : Crc := crcShifts 8 (c ^^^ (b.setWidth 16 <<< 8))

/-- The CRC register after a byte string has been fed to it, in order (40_crc.md R108). -/
def crcFeed (c : Crc) (s : List Byte) : Crc := s.foldl crcStep c

/-- `Crc16(s)` (40_crc.md R107). -/
def crc16 (s : List Byte) : Crc := crcFeed Config.crcInit s

end Sys2Proof.Machine
end

