-- ==== Sys2Proof/Machine/State.lean ====
section
/-! DEFINITION. The machine's state: the whole tuple of 10_state.md R20, and three fields of the model's own that stand
for what is outside the block (the events at its port, the host's last response, a counter of free values). Plain data. -/

namespace Sys2Proof.Machine

/-- A byte buffer as (index, byte) pairs in canonical form: indices strictly rising, no pair equal to what an unlisted
index reads as (see `Memory.wf` in Machine/Ops.lean). -/
abbrev Memory := List Host.Cell

/-- The complete state. The fields up to `errcmd` are 10_state.md R20's; the last three are the model's own. -/
structure State where
  /-- CRC register (10_state.md R22). -/
  crc : Crc
  /-- A field is open (R23). -/
  fopen : Bool
  /-- Latched field tag (R24). -/
  ftag : Tag
  /-- Value length counter, 0 to 99 (R25). -/
  flen : Nat
  /-- Value buffer, 99 bytes (R26). -/
  vbuf : Memory
  /-- A composite is open: the multiplexer select (R27). -/
  copen : Bool
  /-- Latched composite tag (R28). -/
  ctag : Tag
  /-- Composite length counter, 0 to 99 (R29). -/
  clen : Nat
  /-- Composite buffer, 99 bytes (R30). -/
  cbuf : Memory
  /-- Output length counter, 0 to OUT_CAP (R31). -/
  olen : Nat
  /-- Output buffer, OUT_CAP bytes (R32). -/
  obuf : Memory
  /-- Sticky fault flag (R33). -/
  fault : Bool
  /-- Code of the first fault (R34). -/
  errcode : BitVec 4
  /-- Command word that faulted (R35). -/
  errcmd : Word
  /-- The model's own: events issued at the port and not yet performed, oldest first (20_memory.md R59; log 3). -/
  bus : List BusEvent
  /-- The model's own: the response to the host's last access (60_exceptions.md R209; log 4). -/
  resp : Response
  /-- The model's own: how many free values have been used (log 5). -/
  drawn : Nat
  deriving DecidableEq, Repr

/-- The reasons the machine can stop with a fault: there are none. Every command completes (70_reset_and_hazards.md
R238), a block fault is a state (60_exceptions.md R203) and a bus error is a response (R209). Safe (log 14). -/
inductive Fault
  deriving DecidableEq, Repr

/-- The reasons the model gives no meaning. -/
inductive Refusal where
  /-- Raised by `exec` for an instruction that has no meaning yet; no arm raises it now. Safe. -/
  | notModelled (mnemonic : String)
  /-- Raised by a step whose access comes from a second bus master: 60_exceptions.md R215 says a model must refuse that
  configuration rather than merge the streams. Safe (log 6). -/
  | secondHost
  deriving DecidableEq, Repr

/-- The machine right after reset (10_state.md R20; 43_output_control.md R162). Buffers all 0x00 list nothing. The last
three values are the model's own: DESIGN CHOICE, logs 3 to 5. -/
def State.reset : State where
  crc := Config.crcInit
  fopen := false
  ftag := 0
  flen := 0
  vbuf := []
  copen := false
  ctag := 0
  clen := 0
  cbuf := []
  olen := 0
  obuf := []
  fault := false
  errcode := 0
  errcmd := 0
  bus := []
  resp := .quiet
  drawn := 0

/-- What executing a command, or performing an event, answers. -/
abbrev Result := Host.Outcome State Fault Refusal

end Sys2Proof.Machine
end

