-- ==== Sys2Proof/Machine/Ops.lean ====
section
/-! DEFINITION. The named operations over the buffers and the registers. All checks of a command come before its first
write (60_exceptions.md R205), so these operations check nothing: the meanings do. -/

namespace Sys2Proof.Machine

/-- What an unlisted index of a buffer reads as: 0x00, the reset contents of all three buffers (10_state.md R20; log 8). -/
def unlistedByte : Byte := 0x00

/-- Byte `a` of a buffer (`buf[a]`, 00_scope.md R11). -/
def Memory.read : Memory → Nat → Byte
  | [], _ => unlistedByte
  | (k, v) :: m, a => if a = k then v else if a < k then unlistedByte else Memory.read m a

/-- A pair put in front of a buffer's later ones, unless it says what an unlisted index reads as anyway. -/
def Memory.cons (a : Nat) (b : Byte) (m : Memory) : Memory := if b = unlistedByte then m else (a, b) :: m

/-- `buf[a] <- b` (00_scope.md R11), keeping the canonical form. -/
def Memory.write : Memory → Nat → Byte → Memory
  | [], a, b => Memory.cons a b []
  | (k, v) :: m, a, b =>
    if a < k then Memory.cons a b ((k, v) :: m)
    else if a = k then Memory.cons a b m
    else (k, v) :: Memory.write m a b

/-- The first `n` bytes of a buffer, in index order: `buf[0..n-1]` (20_memory.md R58 (a)). -/
def Memory.firstBytes (m : Memory) (n : Nat) : List Byte := (List.range n).map (Memory.read m)

/-- Indices strictly rising from `lo` on, and no pair equal to what an unlisted index reads as. -/
def Memory.wfFrom : Nat → Memory → Bool
  | _, [] => true
  | lo, (k, v) :: m => lo ≤ k && v != unlistedByte && Memory.wfFrom (k + 1) m

/-- The canonical form: equal contents are equal lists. -/
def Memory.wf (m : Memory) : Bool := Memory.wfFrom 0 m

/-- Every listed index lies below the buffer's capacity. -/
def Memory.below (cap : Nat) (m : Memory) : Bool := m.all fun c => c.1 < cap

/-- The codes a fault records (60_exceptions.md R201). -/
inductive FaultCode where
  | valueTooLong
  | illegalCommand
  | sequenceError
  | invalidTag
  | outputOverflow
  deriving DecidableEq, Repr

/-- The 4-bit code (60_exceptions.md R201). -/
def faultNumber : FaultCode → BitVec 4
  | .valueTooLong => 1
  | .illegalCommand => 2
  | .sequenceError => 3
  | .invalidTag => 4
  | .outputOverflow => 5

/-- TAKING A FAULT: `Fault(code)` while the command word `w` executes (60_exceptions.md R203). Nothing else changes. -/
def State.raise (s : State) (code : FaultCode) (w : Word) : State :=
  { s with fault := true, errcode := faultNumber code, errcmd := w }

/-- LEAVING THE FAULT STATE: `Reset()` (43_output_control.md R162), which CLEAR and the hardware reset input perform
(70_reset_and_hazards.md R230). Every element of block state takes its reset value; the model's own fields stay. -/
def State.resetBlock (s : State) : State :=
  { State.reset with bus := s.bus, resp := s.resp, drawn := s.drawn }

/-- The gate of the fault state: while `fault = 1` a command is ignored (60_exceptions.md R204, 30_encoding.md R76);
otherwise the state after it is `t`. -/
def State.unlessFaulted (s t : State) : State := if s.fault then s else t

/-- `crc <- c`. -/
def State.setCrc (s : State) (c : Crc) : State := { s with crc := c }

/-- `EmitRaw(b)` (20_memory.md R57). -/
def State.emitRaw (s : State) (b : Byte) : State :=
  { s with obuf := Memory.write s.obuf s.olen b, olen := s.olen + 1 }

/-- `Emit(b)`: append, then feed the byte through the CRC tap (20_memory.md R56). -/
def State.emit (s : State) (b : Byte) : State := (s.emitRaw b).setCrc (crcStep s.crc b)

/-- `CBufAppend(x)`: no tap (42_composite.md R141). -/
def State.cbufAppend (s : State) (x : Byte) : State :=
  { s with cbuf := Memory.write s.cbuf s.clen x, clen := s.clen + 1 }

/-- `vbuf[flen] <- B; flen <- flen + 1` (41_tlv.md R124). -/
def State.vbufAppend (s : State) (b : Byte) : State :=
  { s with vbuf := Memory.write s.vbuf s.flen b, flen := s.flen + 1 }

/-- `for x in e, in order: EmitRaw(x)` (40_crc.md R106). -/
def State.emitRawAll (s : State) (e : List Byte) : State := e.foldl State.emitRaw s

/-- `for x in e, in order: Emit(x)` (41_tlv.md R125). -/
def State.emitAll (s : State) (e : List Byte) : State := e.foldl State.emit s

/-- `for x in e, in order: CBufAppend(x)` (41_tlv.md R125). -/
def State.cbufAppendAll (s : State) (e : List Byte) : State := e.foldl State.cbufAppend s

/-- Open a field: `fopen <- 1; ftag <- T; flen <- 0` (41_tlv.md R123). -/
def State.openField (s : State) (t : Tag) : State := { s with fopen := true, ftag := t, flen := 0 }

/-- Close the field: `fopen <- 0; flen <- 0`; `ftag` keeps its value (41_tlv.md R125). -/
def State.closeField (s : State) : State := { s with fopen := false, flen := 0 }

/-- Open a composite: `copen <- 1; ctag <- T; clen <- 0` (42_composite.md R142). -/
def State.openComposite (s : State) (t : Tag) : State := { s with copen := true, ctag := t, clen := 0 }

/-- Close the composite: `copen <- 0; clen <- 0`; `ctag` keeps its value (42_composite.md R143). -/
def State.closeComposite (s : State) : State := { s with copen := false, clen := 0 }

/-- Give the host a response. -/
def State.answer (s : State) (r : Response) : State := { s with resp := r }

/-- The value characters of the open field, `vbuf[0..flen-1]` (10_state.md R26). -/
def State.fieldValue (s : State) : List Byte := Memory.firstBytes s.vbuf s.flen

/-- The sub-field encodings of the open composite, `cbuf[0..clen-1]` (10_state.md R30). -/
def State.compositeValue (s : State) : List Byte := Memory.firstBytes s.cbuf s.clen

/-- The payload built so far, `obuf[0..olen-1]` (10_state.md R32). -/
def State.output (s : State) : List Byte := Memory.firstBytes s.obuf s.olen

end Sys2Proof.Machine
end

