-- ==== Sys2Proof/Machine/Composite.lean ====
section
/-! DEFINITION. The composite field multiplexer's commands (42_composite.md section 2). -/

namespace Sys2Proof.Machine

/-- CMP.OPEN: opens a composite and switches the multiplexer to the composite buffer (42_composite.md R142). -/
def execCmpOpen (t : Tag) (s : State) : Result :=
  .next <| s.unlessFaulted <|
    if s.copen || s.fopen then s.raise .sequenceError (encode (.cmpOpen t))
    else if !isDigitTag t then s.raise .invalidTag (encode (.cmpOpen t))
    else s.openComposite t

/-- CMP.CLOSE: emits the composite buffer as one outer field and switches the multiplexer back (42_composite.md R143). -/
def execCmpClose (s : State) : Result :=
  .next <| s.unlessFaulted <|
    if !s.copen || s.fopen then s.raise .sequenceError (encode .cmpClose)
    else if s.olen + s.clen + 4 > Config.outCap then s.raise .outputOverflow (encode .cmpClose)
    else (s.emitAll (enc s.ctag s.compositeValue)).closeComposite

end Sys2Proof.Machine
end

