-- ==== Sys2Proof/Machine/Control.lean ====
section
/-! DEFINITION. The output and control commands (43_output_control.md section 1). -/

namespace Sys2Proof.Machine

/-- OUT.BYTE: appends one raw byte to the output through the CRC tap (43_output_control.md R160). -/
def execOutByte (b : Byte) (s : State) : Result :=
  .next <| s.unlessFaulted <|
    if s.fopen || s.copen then s.raise .sequenceError (encode (.outByte b))
    else if s.olen + 1 > Config.outCap then s.raise .outputOverflow (encode (.outByte b))
    else s.emit b

/-- NOP: no state changes (43_output_control.md R161). -/
def execNop (s : State) : Result := .next s

/-- CLEAR: the only command that acts in the fault state too (43_output_control.md R162). -/
def execClear (s : State) : Result := .next s.resetBlock

end Sys2Proof.Machine
end

