-- ==== Sys2Proof/Machine/Crc.lean ====
section
/-! DEFINITION. The CRC engine's commands (40_crc.md section 2). -/

namespace Sys2Proof.Machine

/-- CRC.INIT: sets the CRC register to its initial value (40_crc.md R104). -/
def execCrcInit (s : State) : Result := .next (s.unlessFaulted (s.setCrc Config.crcInit))

/-- CRC.BYTE: feeds one byte to the CRC without writing the output (40_crc.md R105). -/
def execCrcByte (b : Byte) (s : State) : Result := .next (s.unlessFaulted (s.setCrc (crcStep s.crc b)))

/-- CRC.EMIT: appends the register's four hexadecimal characters, untapped (40_crc.md R106). -/
def execCrcEmit (s : State) : Result :=
  .next <| s.unlessFaulted <|
    if s.fopen || s.copen then s.raise .sequenceError (encode .crcEmit)
    else if s.olen + 4 > Config.outCap then s.raise .outputOverflow (encode .crcEmit)
    else s.emitRawAll (hex s.crc)

end Sys2Proof.Machine
end

