-- ==== Sys2Proof/Machine/Tlv.lean ====
section
/-! DEFINITION. The TLV field encoder's commands (41_tlv.md section 2). -/

namespace Sys2Proof.Machine

/-- FLD.OPEN: opens a field with the given tag (41_tlv.md R123). -/
def execFldOpen (t : Tag) (s : State) : Result :=
  .next <| s.unlessFaulted <|
    if s.fopen then s.raise .sequenceError (encode (.fldOpen t))
    else if !isDigitTag t then s.raise .invalidTag (encode (.fldOpen t))
    else s.openField t

/-- FLD.BYTE: appends one character to the open field's value and counts it (41_tlv.md R124). -/
def execFldByte (b : Byte) (s : State) : Result :=
  .next <| s.unlessFaulted <|
    if !s.fopen then s.raise .sequenceError (encode (.fldByte b))
    else if s.flen = Config.maxValue then s.raise .valueTooLong (encode (.fldByte b))
    else s.vbufAppend b

/-- FLD.CLOSE: writes the field's encoding where the multiplexer points, the composite buffer or the tapped output, and
closes the field (41_tlv.md R125). -/
def execFldClose (s : State) : Result :=
  .next <| s.unlessFaulted <|
    if !s.fopen then s.raise .sequenceError (encode .fldClose)
    else if s.copen then
      if s.clen + s.flen + 4 > Config.maxValue then s.raise .valueTooLong (encode .fldClose)
      else (s.cbufAppendAll (enc s.ftag s.fieldValue)).closeField
    else if s.olen + s.flen + 4 > Config.outCap then s.raise .outputOverflow (encode .fldClose)
    else (s.emitAll (enc s.ftag s.fieldValue)).closeField

end Sys2Proof.Machine
end

