-- ==== Sys2Proof/Machine/Dispatch.lean ====
section
/-! DEFINITION. What each command does: one arm for each row of the opcode map (30_encoding.md R73). -/

namespace Sys2Proof.Machine

def exec (i : Instr) (s : State) : Host.Outcome State Fault Refusal :=
  match i with
  | .nop => Sys2Proof.Machine.execNop s
  | .clear => Sys2Proof.Machine.execClear s
  | .crcInit => Sys2Proof.Machine.execCrcInit s
  | .crcByte b => Sys2Proof.Machine.execCrcByte b s
  | .crcEmit => Sys2Proof.Machine.execCrcEmit s
  | .fldOpen t => Sys2Proof.Machine.execFldOpen t s
  | .fldByte b => Sys2Proof.Machine.execFldByte b s
  | .fldClose => Sys2Proof.Machine.execFldClose s
  | .cmpOpen t => Sys2Proof.Machine.execCmpOpen t s
  | .cmpClose => Sys2Proof.Machine.execCmpClose s
  | .outByte b => Sys2Proof.Machine.execOutByte b s

end Sys2Proof.Machine
end

