-- ==== Sys2Proof/Machine/Flags.lean ====
section
/-! DEFINITION. The host-visible registers as views of the state (10_state.md R36 to R45) and the readable part of the
register map (20_memory.md R51, R54). A field sits in the low bits and every bit above it reads 0. -/

namespace Sys2Proof.Machine

/-- A flag as bit `k` of a register. -/
def flagBit (f : Bool) (k : Nat) : Word := (BitVec.ofBool f).setWidth 32 <<< k

/-- STATUS: `zext_32(errcode || 0b0 || fault || copen || fopen)`: FOPEN in bit 0, COPEN in bit 1, FAULT in bit 2, ERRCODE
in bits 7:4 (10_state.md R37). -/
def statusWord (s : State) : Word :=
  s.errcode.setWidth 32 <<< 4 ||| flagBit s.fault 2 ||| flagBit s.copen 1 ||| flagBit s.fopen 0

/-- CRC: bits 15:0 (10_state.md R38). -/
def crcWord (s : State) : Word := s.crc.setWidth 32

/-- OLEN: bits 10:0 (10_state.md R39). -/
def olenWord (s : State) : Word := (BitVec.ofNat 11 s.olen).setWidth 32

/-- FLEN: bits 6:0 (10_state.md R40). -/
def flenWord (s : State) : Word := (BitVec.ofNat 7 s.flen).setWidth 32

/-- CLEN: bits 6:0 (10_state.md R41). -/
def clenWord (s : State) : Word := (BitVec.ofNat 7 s.clen).setWidth 32

/-- FTAG: bits 15:0 (10_state.md R42). -/
def ftagWord (s : State) : Word := s.ftag.setWidth 32

/-- CTAG: bits 15:0 (10_state.md R43). -/
def ctagWord (s : State) : Word := s.ctag.setWidth 32

/-- ERRCMD: bits 31:0 (10_state.md R44). -/
def errcmdWord (s : State) : Word := s.errcmd

/-- Word `i` of the output window: `zext_32(obuf[i])` below `olen`, 0 from there on (20_memory.md R54). -/
def windowWord (s : State) (i : Nat) : Word :=
  if i < s.olen then (Memory.read s.obuf i).setWidth 32 else 0

/-- Where the output window starts (20_memory.md R51). -/
def windowStart : Nat := 0x1000

/-- The word read at an offset that is a multiple of 4, if the map makes it readable (20_memory.md R51). CMD is
write-only, so its offset is not here. -/
def readableWord (s : State) (off : Nat) : Option Word :=
  if off = 0x004 then some (statusWord s)
  else if off = 0x008 then some (crcWord s)
  else if off = 0x00C then some (olenWord s)
  else if off = 0x010 then some (flenWord s)
  else if off = 0x014 then some (clenWord s)
  else if off = 0x018 then some (ftagWord s)
  else if off = 0x01C then some (ctagWord s)
  else if off = 0x020 then some (errcmdWord s)
  else if windowStart ≤ off ∧ off < windowStart + 4 * Config.outCap then some (windowWord s ((off - windowStart) / 4))
  else none

end Sys2Proof.Machine
end

