-- ==== Sys2Proof/Machine/Bus.lean ====
section
/-! DEFINITION. The register port (20_memory.md sections 1, 2 and 5): executing a CMD write, reading a register or a
window word, bus errors, the hardware reset input, and how the host's addresses reach the window. -/

namespace Sys2Proof.Machine

/-- Executing a word that `Decode` calls `Illegal` (30_encoding.md R75, R76): IllegalCommand, unless the block is
already in the fault state. -/
def executeIllegal (w : Word) (s : State) : State := s.unlessFaulted (s.raise .illegalCommand w)

/-- `Execute(w)` (30_encoding.md R76). Each meaning that `exec` calls holds R76's gate of the fault state itself, so
that `exec i` is the whole effect of writing the word of `i` (log 13). -/
def execute (w : Word) (s : State) : Result :=
  match decode w with
  | .ok i => exec i s
  | .error _ => .next (executeIllegal w s)

/-- `MemRead(BASE+a, n)`: the word read, or none for a bus error (20_memory.md R52). -/
def readAccess (s : State) (a : Offset) (n : Nat) : Option Word :=
  if n = 4 ∧ a.toNat % 4 = 0 then readableWord s a.toNat else none

/-- `MemWrite(BASE+a, n, v)` is accepted only for a word written to CMD (20_memory.md R52). -/
def writeAccepted (a : Offset) (n : Nat) : Bool := n == 4 && a == 0

/-- One access of the host, with its response (20_memory.md R52; 60_exceptions.md R209): a refused access changes no
block state. The response to a CMD write is settled when the write is accepted; executing a command never touches it. -/
def performAccess (a : Access) (s : State) : Result :=
  match a with
  | .read off n =>
    match readAccess s off n with
    | some v => .next (s.answer (.data v))
    | none => .next (s.answer .busError)
  | .write off n v => if writeAccepted off n then execute v (s.answer .done) else .next (s.answer .busError)

/-- The hardware reset input (70_reset_and_hazards.md R230). An access pending at that moment is lost, and its response
is a free value (R236; log 5). -/
def performReset (pending : Option Access) (s : State) : State :=
  match pending with
  | none => s.resetBlock
  | some _ => { s.resetBlock with resp := Config.lostResponse s.drawn, drawn := s.drawn + 1 }

/-- One event at the port. An access of a second bus master is refused (60_exceptions.md R215; log 6). -/
def performEvent (e : BusEvent) (s : State) : Result :=
  match e with
  | .access .host a => performAccess a s
  | .access .other _ => .refused .secondHost
  | .reset pending => .next (performReset pending s)

/-- The block takes the oldest event at its port, one at a time in issue order (20_memory.md R59); with none it is idle
and keeps its state (60_exceptions.md R217; log 3). -/
def runPort (s : State) : Result :=
  match s.bus with
  | [] => .next s
  | e :: rest => performEvent e { s with bus := rest }

/-- The window offset of a host address, if it lies in this block's window at BASE (20_memory.md R50). -/
def windowOffset (addr : Nat) : Option Offset :=
  if addr / Config.windowBytes = Config.baseIndex then some (BitVec.ofNat 13 addr) else none

/-- An event issued at the port, after those already waiting (20_memory.md R59). -/
def State.issue (s : State) (e : BusEvent) : State := { s with bus := s.bus ++ [e] }

/-- The host issues `MemRead(addr, n)`; an address outside the window is not this block's (20_memory.md R50, R52). -/
def State.hostRead (s : State) (addr n : Nat) : State :=
  match windowOffset addr with
  | some a => s.issue (.access .host (.read a n))
  | none => s

/-- The host issues `MemWrite(addr, n, v)` (20_memory.md R52). -/
def State.hostWrite (s : State) (addr n : Nat) (v : Word) : State :=
  match windowOffset addr with
  | some a => s.issue (.access .host (.write a n v))
  | none => s

/-- The CMD write of a command word, as an event (10_state.md R45). -/
def cmdWrite (w : Word) : BusEvent := .access .host (.write 0 4 w)

/-- The word of an instruction placed as the next event at the port: bits at 32 and above are no part of a command. -/
def State.placeCommand (s : State) (nbits w : Nat) : State :=
  { s with bus := cmdWrite (BitVec.ofNat 32 (w % 2 ^ nbits)) :: s.bus }

/-- Commands executed one after another, as the host's successive CMD writes execute them (20_memory.md R59). -/
def execAll : List Instr → State → Result
  | [], s => .next s
  | i :: is, s =>
    match exec i s with
    | .next t => execAll is t
    | .fault r => .fault r
    | .refused r => .refused r

end Sys2Proof.Machine
end

