-- ==== Sys2Proof/Machine/Step.lean ====
section
/-! DEFINITION. One step of the machine: one event at the block's port, performed whole (20_memory.md R59, R61;
70_reset_and_hazards.md R238). The block fetches no instructions (20_memory.md R62): writing CMD is the only way a
command reaches it. -/

namespace Sys2Proof.Machine

/-- The next event at the port; idle when there is none. -/
def step (s : State) : Host.Outcome State Fault Refusal := runPort s

/-- `s` with the instruction's word as the host's very next CMD write (log 3). -/
def State.withFetchWord (s : State) (nbits w : Nat) : State := s.placeCommand nbits w

end Sys2Proof.Machine
end

