-- ==== Sys2Proof/Machine/Assembler.lean ====
section
/-! DEFINITION. The assembler (30_encoding.md section 4): a source line read as one command or one pseudo-instruction,
its expansion into commands, and the words of the whole text. What R77 and R78 leave open of the text is log 12. -/

namespace Sys2Proof.Machine

/-- A source line once read (30_encoding.md R77, R78). -/
inductive AsmLine where
  | empty
  | command (i : Instr)
  | field (t : Tag) (v : List Byte)
  | composite (t : Tag) (subs : List (Tag × List Byte))
  | out (v : List Byte)
  | crcstr (v : List Byte)
  | checksum (t : Tag)
  deriving DecidableEq, Repr

/-- The expansion of `FIELD t, v` (30_encoding.md R78). -/
def expandField (t : Tag) (v : List Byte) : List Instr := [.fldOpen t] ++ v.map .fldByte ++ [.fldClose]

/-- The expansion of `COMPOSITE t, (s1,v1), ..., (sk,vk)`, sub-fields in the written order (30_encoding.md R78). -/
def expandComposite (t : Tag) (subs : List (Tag × List Byte)) : List Instr :=
  [.cmpOpen t] ++ subs.flatMap (fun p => expandField p.1 p.2) ++ [.cmpClose]

/-- The expansion of `CHECKSUM t` (30_encoding.md R78, 43_output_control.md R163). -/
def expandChecksum (t : Tag) : List Instr :=
  [.outByte (tagFirst t), .outByte (tagSecond t), .outByte 0x30, .outByte 0x34, .crcEmit]

/-- The commands of a line; no length is checked (30_encoding.md R78). -/
def expandLine : AsmLine → List Instr
  | .empty => []
  | .command i => [i]
  | .field t v => expandField t v
  | .composite t subs => expandComposite t subs
  | .out v => v.map .outByte
  | .crcstr v => v.map .crcByte
  | .checksum t => expandChecksum t

/-- The byte of a character (00_scope.md R9). -/
def byteOfChar (c : Char) : Byte := BitVec.ofNat 8 c.toNat

/-- The tag of a two-character literal (30_encoding.md R77). -/
def tagOfChars : List Char → Option Tag
  | [c0, c1] => if tagLiteral [c0, c1] then some (tagOf (byteOfChar c0) (byteOfChar c1)) else none
  | _ => none

/-- Blanks between the parts of a line (log 12). -/
def skipBlanks (cs : List Char) : List Char := cs.dropWhile fun c => c == ' ' || c == '\t'

/-- Nothing but blanks and a comment is left; a comment runs from `;` to the end of the line (30_encoding.md R77). -/
def atLineEnd (cs : List Char) : Bool :=
  match skipBlanks cs with
  | [] => true
  | c :: _ => c == ';'

/-- One given character, after blanks. -/
def expectChar (c : Char) (cs : List Char) : Option (List Char) :=
  match skipBlanks cs with
  | d :: rest => if d = c then some rest else none
  | [] => none

/-- A string literal's characters and what follows it (30_encoding.md R77). -/
def readString (cs : List Char) : Option (List Char × List Char) := do
  let body ← expectChar (Char.ofNat 0x22) cs
  let text := body.takeWhile fun c => c.toNat != 0x22
  let rest ← expectChar (Char.ofNat 0x22) (body.dropWhile fun c => c.toNat != 0x22)
  if stringLiteral text then some (text, rest) else none

/-- A tag operand (30_encoding.md R77). -/
def readTag (cs : List Char) : Option (Tag × List Char) := do
  let (text, rest) ← readString cs
  let t ← tagOfChars text
  some (t, rest)

/-- A string operand, each character one byte (30_encoding.md R78). -/
def readBytes (cs : List Char) : Option (List Byte × List Char) := do
  let (text, rest) ← readString cs
  some (text.map byteOfChar, rest)

/-- A hexadecimal digit's value, either case (log 12). -/
def hexDigit (c : Char) : Option Nat :=
  let n := c.toNat
  if 0x30 ≤ n ∧ n ≤ 0x39 then some (n - 0x30)
  else if 0x41 ≤ n ∧ n ≤ 0x46 then some (n - 0x41 + 10)
  else if 0x61 ≤ n ∧ n ≤ 0x66 then some (n - 0x61 + 10)
  else none

/-- A decimal digit's value. -/
def decimalDigit (c : Char) : Option Nat :=
  if 0x30 ≤ c.toNat ∧ c.toNat ≤ 0x39 then some (c.toNat - 0x30) else none

/-- A run of decimal digits, at least one, as a number, and what follows it. -/
def readDecimal (cs : List Char) : Option (Nat × List Char) :=
  let ds := cs.takeWhile fun c => (decimalDigit c).isSome
  if ds.isEmpty then none
  else some (ds.foldl (fun n c => 10 * n + (decimalDigit c).getD 0) 0,
    cs.dropWhile fun c => (decimalDigit c).isSome)

/-- A byte operand: a character literal, `0x` and two hexadecimal digits, or a decimal number 0 to 255; any other is
refused (30_encoding.md R77). -/
def readByte (cs : List Char) : Option (Byte × List Char) :=
  match skipBlanks cs with
  | '\'' :: c :: '\'' :: rest => if 0x20 ≤ c.toNat ∧ c.toNat ≤ 0x7E then some (byteOfChar c, rest) else none
  | '0' :: 'x' :: h :: l :: rest => do
    let h ← hexDigit h
    let l ← hexDigit l
    some (BitVec.ofNat 8 (16 * h + l), rest)
  | cs' => do
    let (n, rest) ← readDecimal cs'
    if byteNumber n then some (BitVec.ofNat 8 n, rest) else none

/-- The sub-fields of COMPOSITE, each after a comma, to the end of the line (30_encoding.md R78); `fuel` bounds their
number. DESIGN CHOICE (log 12): with no sub-field the line ends after the tag, with no comma; a comma with no sub-field
after it is refused. -/
def readSubfields : Nat → List Char → Option (List (Tag × List Byte))
  | 0, cs => if atLineEnd cs then some [] else none
  | fuel + 1, cs =>
    if atLineEnd cs then some []
    else do
      let cs ← expectChar ',' cs
      let cs ← expectChar '(' cs
      let (t, cs) ← readTag cs
      let cs ← expectChar ',' cs
      let (v, cs) ← readBytes cs
      let cs ← expectChar ')' cs
      let more ← readSubfields fuel cs
      some ((t, v) :: more)

/-- An operand that must be the line's last part. -/
def lastPart {α : Type} (r : Option (α × List Char)) : Option α := do
  let (a, rest) ← r
  if atLineEnd rest then some a else none

/-- A form N line: its mnemonic takes no operand (30_encoding.md R77). -/
def readFormN (i : Instr) (rest : List Char) : Option AsmLine := if atLineEnd rest then some (.command i) else none

/-- A form B line: one byte operand (30_encoding.md R77). -/
def readFormB (i : Byte → Instr) (rest : List Char) : Option AsmLine :=
  (lastPart (readByte rest)).map fun b => .command (i b)

/-- A line with one tag operand: form T and CHECKSUM (30_encoding.md R77, R78). -/
def readFormT (l : Tag → AsmLine) (rest : List Char) : Option AsmLine := (lastPart (readTag rest)).map l

/-- A line with one string operand: OUT and CRCSTR (30_encoding.md R78). -/
def readFormS (l : List Byte → AsmLine) (rest : List Char) : Option AsmLine := (lastPart (readBytes rest)).map l

/-- The operands of FIELD (30_encoding.md R78). -/
def readField (rest : List Char) : Option AsmLine := do
  let (t, rest) ← readTag rest
  let rest ← expectChar ',' rest
  (lastPart (readBytes rest)).map fun v => .field t v

/-- The operands of COMPOSITE (30_encoding.md R78). -/
def readComposite (rest : List Char) : Option AsmLine := do
  let (t, rest) ← readTag rest
  (readSubfields rest.length rest).map fun subs => .composite t subs

/-- What follows a mnemonic, read as its form asks (30_encoding.md R73, R77, R78); mnemonics are upper case. -/
def readOperands (mnemonic rest : List Char) : Option AsmLine :=
  if mnemonic = "NOP".toList then readFormN .nop rest
  else if mnemonic = "CLEAR".toList then readFormN .clear rest
  else if mnemonic = "CRC.INIT".toList then readFormN .crcInit rest
  else if mnemonic = "CRC.BYTE".toList then readFormB .crcByte rest
  else if mnemonic = "CRC.EMIT".toList then readFormN .crcEmit rest
  else if mnemonic = "FLD.OPEN".toList then readFormT (.command ∘ .fldOpen) rest
  else if mnemonic = "FLD.BYTE".toList then readFormB .fldByte rest
  else if mnemonic = "FLD.CLOSE".toList then readFormN .fldClose rest
  else if mnemonic = "CMP.OPEN".toList then readFormT (.command ∘ .cmpOpen) rest
  else if mnemonic = "CMP.CLOSE".toList then readFormN .cmpClose rest
  else if mnemonic = "OUT.BYTE".toList then readFormB .outByte rest
  else if mnemonic = "FIELD".toList then readField rest
  else if mnemonic = "COMPOSITE".toList then readComposite rest
  else if mnemonic = "OUT".toList then readFormS .out rest
  else if mnemonic = "CRCSTR".toList then readFormS .crcstr rest
  else if mnemonic = "CHECKSUM".toList then readFormT .checksum rest
  else none

/-- A character of a mnemonic: an upper-case letter or a full stop (30_encoding.md R77). -/
def mnemonicChar (c : Char) : Bool := (0x41 ≤ c.toNat && c.toNat ≤ 0x5A) || c == '.'

/-- One source line: a mnemonic with its operands, or its comment too (30_encoding.md R77). DESIGN CHOICE (log 12): a
line that is blank, or only a comment, is accepted and makes no words; R77 speaks of lines with a command only. -/
def readLine (cs : List Char) : Option AsmLine :=
  if atLineEnd cs then some .empty
  else readOperands ((skipBlanks cs).takeWhile mnemonicChar) ((skipBlanks cs).dropWhile mnemonicChar)

/-- The command words of one source line, or none where the assembler refuses it. -/
def assembleLine (cs : List Char) : Option (List Word) := (readLine cs).map fun l => (expandLine l).map encode

/-- The lines of a text. -/
def splitLines : List Char → List (List Char)
  | [] => [[]]
  | c :: cs =>
    if c = '\n' then [] :: splitLines cs
    else match splitLines cs with
      | [] => [[c]]
      | l :: ls => (c :: l) :: ls

/-- The command words of a text, one command or pseudo-instruction per line (30_encoding.md R77). -/
def assemble (text : List Char) : Option (List Word) := ((splitLines text).mapM assembleLine).map List.flatten

end Sys2Proof.Machine
end

