-- ==== Sys2Proof/Safety.lean ====
section
/-! DEFINITION. The terms the claims use: the invariants of 10_state.md R47, when an output is a payload, the causes of
faults as 60_exceptions.md R202 and R206 list them, the bytes a command feeds to the CRC engine (40_crc.md R108), the
lines of assembler text in a plain layout of 30_encoding.md R77 and R78, and what of a state a host can ever observe
(10_state.md R46). -/

namespace Sys2Proof.Machine

/-- A concatenation of field encodings with digit tags (10_state.md R47, 41_tlv.md R121). -/
def IsFieldEncodings (bytes : List Byte) : Prop :=
  ∃ fields : List (Tag × List Byte),
    (∀ f ∈ fields, isDigitTag f.1 = true ∧ f.2.length ≤ Config.maxValue) ∧
    bytes = fields.flatMap fun f => enc f.1 f.2

/-- The invariants of 10_state.md R47, and the canonical form and capacity of the model's three buffers. -/
structure State.Inv (s : State) : Prop where
  flen_le : s.flen ≤ Config.maxValue
  clen_le : s.clen ≤ Config.maxValue
  olen_le : s.olen ≤ Config.outCap
  flen_zero : s.fopen = false → s.flen = 0
  clen_zero : s.copen = false → s.clen = 0
  no_fault : s.fault = false → s.errcode = 0 ∧ s.errcmd = 0
  fault_code : s.fault = true → s.errcode ∈ ([1, 2, 3, 4, 5] : List (BitVec 4))
  ftag_digits : s.fopen = true → isDigitTag s.ftag = true
  ctag_digits : s.copen = true → isDigitTag s.ctag = true
  composite_fields : IsFieldEncodings s.compositeValue
  vbuf_wf : Memory.wf s.vbuf = true
  vbuf_below : Memory.below Config.maxValue s.vbuf = true
  cbuf_wf : Memory.wf s.cbuf = true
  cbuf_below : Memory.below Config.maxValue s.cbuf = true
  obuf_wf : Memory.wf s.obuf = true
  obuf_below : Memory.below Config.outCap s.obuf = true

/-- The result of an encode operation: a payload only when FAULT = 0 (60_exceptions.md R208, 70_reset_and_hazards.md
R235). Whether the last command was a checksum, or the bytes a valid payload, it does not say. -/
def State.payload (s : State) : Option (List Byte) := if s.fault then none else some s.output

/-- Every event waiting at the port comes from the one host or the reset input (60_exceptions.md R215). -/
def State.OneHost (s : State) : Prop := ∀ e ∈ s.bus, ∀ a, e ≠ BusEvent.access .other a

/-- The causes of 60_exceptions.md R202 for each command, with their conditions, in the order in which R206 checks them.
IllegalCommand belongs to words, not to commands. -/
def causes (i : Instr) (s : State) : List (FaultCode × Bool) :=
  match i with
  | .nop => []
  | .clear => []
  | .crcInit => []
  | .crcByte _ => []
  | .crcEmit => [(.sequenceError, s.fopen || s.copen), (.outputOverflow, decide (Config.outCap < s.olen + 4))]
  | .fldOpen t => [(.sequenceError, s.fopen), (.invalidTag, !isDigitTag t)]
  | .fldByte _ => [(.sequenceError, !s.fopen), (.valueTooLong, s.fopen && s.flen == 99)]
  | .fldClose =>
    [(.sequenceError, !s.fopen), (.valueTooLong, s.fopen && s.copen && decide (99 < s.clen + s.flen + 4)),
      (.outputOverflow, !s.copen && decide (Config.outCap < s.olen + s.flen + 4))]
  | .cmpOpen t => [(.sequenceError, s.copen || s.fopen), (.invalidTag, !isDigitTag t)]
  | .cmpClose => [(.sequenceError, !s.copen || s.fopen), (.outputOverflow, decide (Config.outCap < s.olen + s.clen + 4))]
  | .outByte _ => [(.sequenceError, s.fopen || s.copen), (.outputOverflow, decide (Config.outCap < s.olen + 1))]

/-- The first cause whose condition holds. -/
def firstHolding : List (FaultCode × Bool) → Option FaultCode
  | [] => none
  | (c, holds) :: more => if holds then some c else firstHolding more

/-- The cause that is raised (60_exceptions.md R206). -/
def firstCause (i : Instr) (s : State) : Option FaultCode := firstHolding (causes i s)

/-- The bytes executing `i` in `s` feeds to the CRC engine, in order: CRC.BYTE's operand, and each byte that an accepted
FLD.CLOSE at top level, CMP.CLOSE or OUT.BYTE emits (40_crc.md R108, 20_memory.md R56). -/
def fedBytes (i : Instr) (s : State) : List Byte :=
  if s.fault || (firstCause i s).isSome then []
  else match i with
    | .crcByte b => [b]
    | .fldClose => if s.copen then [] else enc s.ftag s.fieldValue
    | .cmpClose => enc s.ctag s.compositeValue
    | .outByte b => [b]
    | .nop => []
    | .clear => []
    | .crcInit => []
    | .crcEmit => []
    | .fldOpen _ => []
    | .fldByte _ => []
    | .cmpOpen _ => []

/-- The bytes a sequence of commands feeds to the CRC engine, in order (40_crc.md R108). -/
def fedBytesAll : List Instr → State → List Byte
  | [], _ => []
  | i :: is, s =>
    fedBytes i s ++
      match exec i s with
      | .next t => fedBytesAll is t
      | .fault _ => []
      | .refused _ => []

/-- One text of a byte operand for each kind that 30_encoding.md R77 names, with the byte it stands for: a character literal,
`0x` and two hexadecimal digits (here in upper case), a decimal number 0 to 255 (here without leading zeros). That a
character literal may hold a quote or a semicolon is the model's choice (log 12). -/
inductive WritesByte : List Char → Byte → Prop
  | character (c : Char) (h : 0x20 ≤ c.toNat ∧ c.toNat ≤ 0x7E) : WritesByte ['\'', c, '\''] (byteOfChar c)
  | hexadecimal (b : Byte) : WritesByte
      ['0', 'x', Char.ofNat (hexChar (b.extractLsb' 4 4)).toNat, Char.ofNat (hexChar (b.extractLsb' 0 4)).toNat] b
  | decimal (n : Nat) (h : n ≤ 255) : WritesByte (Nat.toDigits 10 n) (BitVec.ofNat 8 n)

/-- A string literal's text between its double quotes (30_encoding.md R77). -/
def quoted (cs : List Char) : List Char := Char.ofNat 0x22 :: cs ++ [Char.ofNat 0x22]

/-- Source lines in one plain layout of 30_encoding.md R77 and R78, with the commands each stands for: the eleven commands and
the five pseudo-instructions, with every literal tag, every string and every byte of `WritesByte`, one blank after the
mnemonic and after each comma outside parentheses, and no other blank outside a literal. That COMPOSITE with no sub-field
has no comma, and that a literal may hold a semicolon, are the model's choices (log 12). -/
inductive WritesLine : List Char → List Instr → Prop
  | nop : WritesLine "NOP".toList [.nop]
  | clear : WritesLine "CLEAR".toList [.clear]
  | crcInit : WritesLine "CRC.INIT".toList [.crcInit]
  | crcByte {x : List Char} {b : Byte} (h : WritesByte x b) : WritesLine ("CRC.BYTE ".toList ++ x) [.crcByte b]
  | crcEmit : WritesLine "CRC.EMIT".toList [.crcEmit]
  | fldOpen (c d : Char) (h : stringLiteral [c, d] = true) :
      WritesLine ("FLD.OPEN ".toList ++ quoted [c, d]) [.fldOpen (byteOfChar c ++ byteOfChar d)]
  | fldByte {x : List Char} {b : Byte} (h : WritesByte x b) : WritesLine ("FLD.BYTE ".toList ++ x) [.fldByte b]
  | fldClose : WritesLine "FLD.CLOSE".toList [.fldClose]
  | cmpOpen (c d : Char) (h : stringLiteral [c, d] = true) :
      WritesLine ("CMP.OPEN ".toList ++ quoted [c, d]) [.cmpOpen (byteOfChar c ++ byteOfChar d)]
  | cmpClose : WritesLine "CMP.CLOSE".toList [.cmpClose]
  | outByte {x : List Char} {b : Byte} (h : WritesByte x b) : WritesLine ("OUT.BYTE ".toList ++ x) [.outByte b]
  | field (c d : Char) (v : List Char) (ht : stringLiteral [c, d] = true) (hv : stringLiteral v = true) :
      WritesLine ("FIELD ".toList ++ quoted [c, d] ++ ", ".toList ++ quoted v)
        ([.fldOpen (byteOfChar c ++ byteOfChar d)] ++ v.map (fun x => .fldByte (byteOfChar x)) ++ [.fldClose])
  | composite (c d : Char) (subs : List ((Char × Char) × List Char)) (ht : stringLiteral [c, d] = true)
      (hs : ∀ p ∈ subs, stringLiteral [p.1.1, p.1.2] = true ∧ stringLiteral p.2 = true) :
      WritesLine
        ("COMPOSITE ".toList ++ quoted [c, d] ++
          subs.flatMap fun p => ", (".toList ++ quoted [p.1.1, p.1.2] ++ ",".toList ++ quoted p.2 ++ ")".toList)
        ([.cmpOpen (byteOfChar c ++ byteOfChar d)] ++
          (subs.flatMap fun p => [.fldOpen (byteOfChar p.1.1 ++ byteOfChar p.1.2)] ++
            p.2.map (fun x => .fldByte (byteOfChar x)) ++ [.fldClose]) ++
          [.cmpClose])
  | out (v : List Char) (hv : stringLiteral v = true) :
      WritesLine ("OUT ".toList ++ quoted v) (v.map fun x => .outByte (byteOfChar x))
  | crcstr (v : List Char) (hv : stringLiteral v = true) :
      WritesLine ("CRCSTR ".toList ++ quoted v) (v.map fun x => .crcByte (byteOfChar x))
  | checksum (c d : Char) (h : stringLiteral [c, d] = true) :
      WritesLine ("CHECKSUM ".toList ++ quoted [c, d])
        [.outByte (byteOfChar c), .outByte (byteOfChar d), .outByte 0x30, .outByte 0x34, .crcEmit]

/-- The mnemonics of the commands and the names of the pseudo-instructions (30_encoding.md R73, R78). -/
def mnemonics : List (List Char) :=
  ["NOP".toList, "CLEAR".toList, "CRC.INIT".toList, "CRC.BYTE".toList, "CRC.EMIT".toList, "FLD.OPEN".toList,
    "FLD.BYTE".toList, "FLD.CLOSE".toList, "CMP.OPEN".toList, "CMP.CLOSE".toList, "OUT.BYTE".toList, "FIELD".toList,
    "COMPOSITE".toList, "OUT".toList, "CRCSTR".toList, "CHECKSUM".toList]

/-- The two states differ at most in buffer bytes at or above their counts, which no rule reads (10_state.md R46;
20_memory.md R54; 93_implementation_defined.md I6, I7). -/
structure SameToHost (s t : State) : Prop where
  rest : t = { s with vbuf := t.vbuf, cbuf := t.cbuf, obuf := t.obuf }
  value : t.fieldValue = s.fieldValue
  composite : t.compositeValue = s.compositeValue
  output : t.output = s.output

end Sys2Proof.Machine
end

