-- ==== Sys2Proof/Certificates/Slice0/Obligations.lean ====
section
/-! DEFINITION. The statements for the provers, from the numbered rules of spec/. A statement that speaks of the port's
queue (`bus`), of the host's response (`resp`) or of `drawn` speaks of the model's own fields (logs 3, 4 and 5). -/

open Sys2Proof Sys2Proof.Machine

/-! ## Encoding -/

/-- 30_encoding.md R73, R74: the decoder reads back every word the opcode map gives, with every operand. -/
def Obligations.DecodeInvertsEncode : Prop := ∀ i : Instr, decode (encode i) = .ok i

/-- 30_encoding.md R75: a word that differs from a legal word in reserved bits is illegal, not an alias; each command has
one word. -/
def Obligations.EncodeInvertsDecode : Prop := ∀ (w : Word) (i : Instr), decode w = .ok i → encode i = w

/-- 30_encoding.md R73: a word decodes to a command exactly when some row's `(w & mask) = match` selects it, the row is
that command's, and no other row selects it. -/
def Obligations.DecodeFollowsOpcodeMap : Prop :=
  (∀ w : Word, (∃ i, decode w = .ok i) ↔ ∃ r ∈ opcodeRows, rowSelects r w = true) ∧
  (∀ (w : Word) (i : Instr), decode w = .ok i →
    rowOf i ∈ opcodeRows ∧ ∀ r ∈ opcodeRows, (rowSelects r w = true ↔ r = rowOf i))

/-- Words written out in the spec (30_encoding.md R72, R75, R77; 95_test_vectors.md V6, V14, V47, V54, V55). -/
def Obligations.SpecWordsDecode : Prop :=
  decode 0x00000000 = .ok .nop ∧ decode 0x10000000 = .ok .clear ∧ decode 0x20000000 = .ok .crcInit ∧
  decode 0x30000041 = .ok (.crcByte 0x41) ∧ decode 0x40000000 = .ok .crcEmit ∧
  decode 0x50003236 = .ok (.fldOpen 0x3236) ∧ decode 0x60000062 = .ok (.fldByte 0x62) ∧
  decode 0x70000000 = .ok .fldClose ∧ decode 0x80003236 = .ok (.cmpOpen 0x3236) ∧
  decode 0x90000000 = .ok .cmpClose ∧ decode 0xA0000036 = .ok (.outByte 0x36) ∧
  decode 0x00000001 = .error .reservedBits ∧ decode 0x30000141 = .error .reservedBits ∧
  decode 0x40000010 = .error .reservedBits ∧ decode 0xB0000000 = .error .reservedOpcode

/-! ## From the port to a command -/

/-- 20_memory.md R52, 30_encoding.md R76: when the next event at the port is the host's CMD write of a word that decodes
to `i`, the step is `exec i` after the event is taken off the queue and the write answered `done`. -/
def Obligations.StepRunsDecodedCommand : Prop :=
  ∀ (s : State) (rest : List BusEvent) (w : Word) (i : Instr), decode w = .ok i →
    step { s with bus := cmdWrite w :: rest } = exec i { s with bus := rest, resp := .done }

/-- 30_encoding.md R76, `Execute(w)`, line by line: in the fault state only the word 0x10000000 acts, and performs
Reset(); otherwise an illegal word raises IllegalCommand and a legal one performs its rule. That the event leaves `bus` and
that `resp` becomes `done` are the model's choices (logs 3 and 4). -/
def Obligations.CommandWriteFollowsExecute : Prop :=
  ∀ (s : State) (rest : List BusEvent) (w : Word),
    step { s with bus := cmdWrite w :: rest } =
      if s.fault = true then
        if w = 0x10000000 then .next { State.reset with bus := rest, resp := .done, drawn := s.drawn }
        else .next { s with bus := rest, resp := .done }
      else match decode w with
        | .error _ =>
          .next { s with bus := rest, resp := .done, fault := true, errcode := faultNumber .illegalCommand, errcmd := w }
        | .ok i => exec i { s with bus := rest, resp := .done }

/-- 60_exceptions.md R204: in the fault state every command word except 0x10000000, illegal ones too, changes no state,
however many the host writes. -/
def Obligations.FaultStateIgnoresEveryWord : Prop :=
  ∀ (ws : List Word) (s : State), s.fault = true → (∀ w ∈ ws, w ≠ 0x10000000) →
    Host.Core.run Sys2Proof.core ws.length { s with bus := ws.map cmdWrite } =
      .next { s with bus := [], resp := if ws = [] then s.resp else .done }

/-- 60_exceptions.md R204, at the level of a command: all but CLEAR are ignored in the fault state. -/
def Obligations.FaultStateIgnoresCommands : Prop :=
  ∀ (i : Instr) (s : State), s.fault = true → i ≠ .clear → exec i s = .next s

/-- 30_encoding.md R75: OP 0xB to 0xF, or a set bit that the form requires to be zero, raises IllegalCommand and records
the whole word. -/
def Obligations.IllegalWordFaults : Prop :=
  ∀ (s : State) (rest : List BusEvent) (w : Word), s.fault = false →
    (0xB ≤ (opcodeField w).toNat ∨
      ((opcodeField w).toNat ∈ [0x0, 0x1, 0x2, 0x4, 0x7, 0x9] ∧ w.extractLsb' 0 28 ≠ 0) ∨
      ((opcodeField w).toNat ∈ [0x3, 0x6, 0xA] ∧ w.extractLsb' 8 20 ≠ 0) ∨
      ((opcodeField w).toNat ∈ [0x5, 0x8] ∧ w.extractLsb' 16 12 ≠ 0)) →
    step { s with bus := cmdWrite w :: rest } =
      .next { s with bus := rest, resp := .done, fault := true, errcode := 2, errcmd := w }

/-! ## CRC engine -/

/-- 40_crc.md R104. -/
def Obligations.CrcInitExecutes : Prop :=
  ∀ s : State, s.fault = false → exec .crcInit s = .next { s with crc := 0xFFFF }

/-- 40_crc.md R105. -/
def Obligations.CrcByteExecutes : Prop :=
  ∀ (b : Byte) (s : State), s.fault = false → exec (.crcByte b) s = .next { s with crc := crcStep s.crc b }

/-- 40_crc.md R106: the register's four characters stand at `olen` to `olen + 3`, `crc` and everything else unchanged. -/
def Obligations.CrcEmitExecutes : Prop :=
  ∀ s : State, s.fault = false → s.fopen = false → s.copen = false → s.olen + 4 ≤ Config.outCap →
    Memory.wf s.obuf = true →
    ∃ t, exec .crcEmit s = .next t ∧ t = { s with obuf := t.obuf, olen := s.olen + 4 } ∧
      ∀ a, Memory.read t.obuf a =
        if s.olen ≤ a ∧ a < s.olen + 4 then (hex s.crc).getD (a - s.olen) 0 else Memory.read s.obuf a

/-- 40_crc.md R109: the byte-parallel, table-driven form (table entry k is `CrcStep(0, k)`) computes `CrcStep`. -/
def Obligations.CrcStepTableDriven : Prop :=
  ∀ (c : Crc) (b : Byte), crcStep c b = (c <<< 8) ^^^ crcStep 0 ((c >>> 8).setWidth 8 ^^^ b)

/-- 40_crc.md R101: the update is linear over exclusive OR, as division by a fixed polynomial is. -/
def Obligations.CrcStepLinear : Prop :=
  ∀ (c d : Crc) (a b : Byte), crcStep (c ^^^ d) (a ^^^ b) = crcStep c a ^^^ crcStep d b

/-- 40_crc.md R107: `Crc16` starts at 0xFFFF, takes the bytes in order, and gives the check value "29B1". -/
def Obligations.CrcOfString : Prop :=
  crc16 [] = 0xFFFF ∧ (∀ (s : List Byte) (b : Byte), crc16 (s ++ [b]) = crcStep (crc16 s) b) ∧
  hex (crc16 [0x31, 0x32, 0x33, 0x34, 0x35, 0x36, 0x37, 0x38, 0x39]) = [0x32, 0x39, 0x42, 0x31]

/-- 40_crc.md R102, R103: four characters, all '0'..'9' or 'A'..'F', and no two register values share a rendering. -/
def Obligations.HexUppercaseAndInjective : Prop :=
  (∀ c : Crc, (hex c).length = 4 ∧
    ∀ x ∈ hex c, (0x30 ≤ x.toNat ∧ x.toNat ≤ 0x39) ∨ (0x41 ≤ x.toNat ∧ x.toNat ≤ 0x46)) ∧
  ∀ c d : Crc, hex c = hex d → c = d

/-! ## TLV field encoder -/

/-- 41_tlv.md R121: a length is two decimal digits, tens first, and the value it stands for is the length. -/
def Obligations.LengthIsTwoDecimalDigits : Prop :=
  ∀ n : Nat, n ≤ 99 → ∃ x y : Byte, dec2 n = [x, y] ∧ isDigit x = true ∧ isDigit y = true ∧
    10 * (x.toNat - 0x30) + (y.toNat - 0x30) = n

/-- 41_tlv.md R123. -/
def Obligations.FldOpenExecutes : Prop :=
  ∀ (t : Tag) (s : State), s.fault = false → s.fopen = false → isDigitTag t = true →
    exec (.fldOpen t) s = .next { s with fopen := true, ftag := t, flen := 0 }

/-- 41_tlv.md R124: byte `flen` of the value buffer becomes the character, every other byte keeps its value. -/
def Obligations.FldByteExecutes : Prop :=
  ∀ (b : Byte) (s : State), s.fault = false → s.fopen = true → s.flen ≠ 99 → Memory.wf s.vbuf = true →
    ∃ t, exec (.fldByte b) s = .next t ∧ t = { s with vbuf := t.vbuf, flen := s.flen + 1 } ∧
      ∀ a, Memory.read t.vbuf a = if a = s.flen then b else Memory.read s.vbuf a

/-- 41_tlv.md R125 at top level: the encoding stands in the output from `olen` on and is fed to the CRC. -/
def Obligations.FldCloseToOutput : Prop :=
  ∀ s : State, s.fault = false → s.fopen = true → s.copen = false → s.olen + s.flen + 4 ≤ Config.outCap →
    Memory.wf s.obuf = true →
    ∃ t, exec .fldClose s = .next t ∧
      t = { s with
        obuf := t.obuf
        olen := s.olen + s.flen + 4
        crc := crcFeed s.crc (enc s.ftag s.fieldValue)
        fopen := false
        flen := 0 } ∧
      ∀ a, Memory.read t.obuf a =
        if s.olen ≤ a ∧ a < s.olen + s.flen + 4 then (enc s.ftag s.fieldValue).getD (a - s.olen) 0
        else Memory.read s.obuf a

/-- 41_tlv.md R125 inside a composite: the encoding stands in the composite buffer from `clen` on, untapped. -/
def Obligations.FldCloseToComposite : Prop :=
  ∀ s : State, s.fault = false → s.fopen = true → s.copen = true → s.clen + s.flen + 4 ≤ 99 →
    Memory.wf s.cbuf = true →
    ∃ t, exec .fldClose s = .next t ∧
      t = { s with cbuf := t.cbuf, clen := s.clen + s.flen + 4, fopen := false, flen := 0 } ∧
      ∀ a, Memory.read t.cbuf a =
        if s.clen ≤ a ∧ a < s.clen + s.flen + 4 then (enc s.ftag s.fieldValue).getD (a - s.clen) 0
        else Memory.read s.cbuf a

/-! ## Composite field multiplexer -/

/-- 42_composite.md R142. -/
def Obligations.CmpOpenExecutes : Prop :=
  ∀ (t : Tag) (s : State), s.fault = false → s.copen = false → s.fopen = false → isDigitTag t = true →
    exec (.cmpOpen t) s = .next { s with copen := true, ctag := t, clen := 0 }

/-- 42_composite.md R143: the wrapped composite stands in the output from `olen` on and is fed to the CRC. -/
def Obligations.CmpCloseExecutes : Prop :=
  ∀ s : State, s.fault = false → s.copen = true → s.fopen = false → s.olen + s.clen + 4 ≤ Config.outCap →
    Memory.wf s.obuf = true →
    ∃ t, exec .cmpClose s = .next t ∧
      t = { s with
        obuf := t.obuf
        olen := s.olen + s.clen + 4
        crc := crcFeed s.crc (enc s.ctag s.compositeValue)
        copen := false
        clen := 0 } ∧
      ∀ a, Memory.read t.obuf a =
        if s.olen ≤ a ∧ a < s.olen + s.clen + 4 then (enc s.ctag s.compositeValue).getD (a - s.olen) 0
        else Memory.read s.obuf a

/-! ## Output and control -/

/-- 43_output_control.md R160: byte `olen` of the output becomes the byte, which the CRC takes too. -/
def Obligations.OutByteExecutes : Prop :=
  ∀ (b : Byte) (s : State), s.fault = false → s.fopen = false → s.copen = false → s.olen + 1 ≤ Config.outCap →
    Memory.wf s.obuf = true →
    ∃ t, exec (.outByte b) s = .next t ∧
      t = { s with obuf := t.obuf, olen := s.olen + 1, crc := crcStep s.crc b } ∧
      ∀ a, Memory.read t.obuf a = if a = s.olen then b else Memory.read s.obuf a

/-- 43_output_control.md R161: in every state. -/
def Obligations.NopChangesNothing : Prop := ∀ s : State, exec .nop s = .next s

/-- 43_output_control.md R162: in every state, the fault state too, every element of block state takes its reset value. -/
def Obligations.ClearRestoresReset : Prop :=
  ∀ s : State, exec .clear s = .next { State.reset with bus := s.bus, resp := s.resp, drawn := s.drawn }

/-- 43_output_control.md R162, 20_memory.md R61: no command touches what stands outside the block (the model's own
fields: logs 3, 4, 5). -/
def Obligations.CommandsLeavePortAlone : Prop :=
  ∀ (i : Instr) (s t : State), exec i s = .next t → t.bus = s.bus ∧ t.resp = s.resp ∧ t.drawn = s.drawn

/-- 10_state.md R22 to R35, 42_composite.md R140, 60_exceptions.md R202, R203: which commands can change each of the
fourteen elements of block state at all. A buffer's clause speaks of its bytes, since equal contents are equal lists. Only
CLEAR makes the output shorter, and the three fault elements change together, by a command that can fault, once. -/
def Obligations.ElementsChangeOnlyByTheirCommands : Prop :=
  ∀ (i : Instr) (s t : State), exec i s = .next t → i ≠ .clear →
    (t.crc ≠ s.crc → i = .crcInit ∨ (∃ b, i = .crcByte b) ∨ i = .fldClose ∨ i = .cmpClose ∨ ∃ b, i = .outByte b) ∧
    (t.fopen ≠ s.fopen → (∃ x, i = .fldOpen x) ∨ i = .fldClose) ∧
    (t.ftag ≠ s.ftag → i = .fldOpen t.ftag) ∧
    (t.flen ≠ s.flen → (∃ x, i = .fldOpen x) ∨ (∃ b, i = .fldByte b) ∨ i = .fldClose) ∧
    (t.copen ≠ s.copen → (∃ x, i = .cmpOpen x) ∨ i = .cmpClose) ∧
    (t.ctag ≠ s.ctag → i = .cmpOpen t.ctag) ∧
    (t.clen ≠ s.clen → (∃ x, i = .cmpOpen x) ∨ i = .fldClose ∨ i = .cmpClose) ∧
    (t.olen ≠ s.olen → i = .crcEmit ∨ i = .fldClose ∨ i = .cmpClose ∨ ∃ b, i = .outByte b) ∧
    (t.vbuf ≠ s.vbuf → ∃ b, i = .fldByte b) ∧
    (t.cbuf ≠ s.cbuf → i = .fldClose) ∧
    (t.obuf ≠ s.obuf → i = .crcEmit ∨ i = .fldClose ∨ i = .cmpClose ∨ ∃ b, i = .outByte b) ∧
    (t.fault ≠ s.fault ∨ t.errcode ≠ s.errcode ∨ t.errcmd ≠ s.errcmd →
      s.fault = false ∧ t.fault = true ∧ t.errcmd = encode i ∧ i ≠ .nop ∧ i ≠ .crcInit ∧ ∀ b, i ≠ .crcByte b) ∧
    s.olen ≤ t.olen ∧ (s.fault = true → t.fault = true)

/-- 10_state.md R31, R32: no command but CLEAR takes a byte of the output away or changes it. -/
def Obligations.OutputOnlyGrows : Prop :=
  ∀ (i : Instr) (s t : State), s.Inv → i ≠ .clear → exec i s = .next t → ∃ e : List Byte, t.output = s.output ++ e

/-! ## Faults -/

/-- 60_exceptions.md R202, R206: a command raises exactly the first cause of the table that holds, in the order of R206,
and then changes only the three fault fields; with no cause it raises nothing. -/
def Obligations.FaultCausesAndPriority : Prop :=
  ∀ (i : Instr) (s : State), s.fault = false →
    (∀ c, firstCause i s = some c →
      exec i s = .next { s with fault := true, errcode := faultNumber c, errcmd := encode i }) ∧
    (firstCause i s = none → ∃ t, exec i s = .next t ∧ t.fault = false)

/-- 60_exceptions.md R205: the state after a fault equals the state before the faulting command word, legal or illegal,
but for `fault`, `errcode` and `errcmd` (and the model's own port fields); the code is one of R201's. -/
def Obligations.FaultsArePrecise : Prop :=
  ∀ (s t : State) (rest : List BusEvent) (w : Word), s.fault = false →
    step { s with bus := cmdWrite w :: rest } = .next t → t.fault = true →
    t = { s with bus := rest, resp := .done, fault := true, errcode := t.errcode, errcmd := w } ∧
      t.errcode ∈ ([1, 2, 3, 4, 5] : List (BitVec 4))

/-- 60_exceptions.md R207: the only steps out of the fault state are CLEAR and the hardware reset, and both leave the
reset state. -/
def Obligations.FaultEndsOnlyByReset : Prop :=
  ∀ s t : State, s.fault = true → step s = .next t → t.fault = false →
    t = { State.reset with bus := t.bus, resp := t.resp, drawn := t.drawn } ∧
      ((∃ rest, s.bus = cmdWrite 0x10000000 :: rest) ∨ ∃ p rest, s.bus = .reset p :: rest)

/-! ## The register port -/

/-- 10_state.md R37: the fields of STATUS, its reserved bits 0, no side effect. -/
def Obligations.StatusReadShowsFlags : Prop :=
  ∀ (s : State) (rest : List BusEvent), ∃ v : Word,
    step { s with bus := .access .host (.read 0x004 4) :: rest } = .next { s with bus := rest, resp := .data v } ∧
    v.getLsbD 0 = s.fopen ∧ v.getLsbD 1 = s.copen ∧ v.getLsbD 2 = s.fault ∧ v.getLsbD 3 = false ∧
    v.extractLsb' 4 4 = s.errcode ∧ v.extractLsb' 8 24 = 0

/-- 10_state.md R38 to R44: CRC, OLEN, FLEN, CLEN, FTAG, CTAG and ERRCMD read as the numbers they hold, bits above the
field 0, no side effect. -/
def Obligations.RegisterReadsShowState : Prop :=
  ∀ (s : State) (rest : List BusEvent), s.Inv →
    ∀ p ∈ ([(0x008, s.crc.toNat), (0x00C, s.olen), (0x010, s.flen), (0x014, s.clen), (0x018, s.ftag.toNat),
        (0x01C, s.ctag.toNat), (0x020, s.errcmd.toNat)] : List (Offset × Nat)),
      ∃ v : Word, step { s with bus := .access .host (.read p.1 4) :: rest } =
        .next { s with bus := rest, resp := .data v } ∧ v.toNat = p.2

/-- 20_memory.md R54: word i of the output window is `zext_32(obuf[i])` below `olen` and 0 from there on. -/
def Obligations.OutputWindowReads : Prop :=
  ∀ (s : State) (rest : List BusEvent) (i : Nat), i < Config.outCap →
    step { s with bus := .access .host (.read (BitVec.ofNat 13 (0x1000 + 4 * i)) 4) :: rest } =
      .next { s with bus := rest, resp := .data (if i < s.olen then (Memory.read s.obuf i).setWidth 32 else 0) }

/-- 20_memory.md R51, R52: a read is a bus error exactly when its width is not 4, its offset is no multiple of 4, or the
map does not make the offset readable; a write is one exactly when it is not a word to CMD. A bus error changes no block
state. -/
def Obligations.BusErrorsChangeNothing : Prop :=
  ∀ (s : State) (rest : List BusEvent) (a : Offset) (n : Nat),
    (¬ (n = 4 ∧ a.toNat % 4 = 0 ∧
        ((0x004 ≤ a.toNat ∧ a.toNat ≤ 0x020) ∨ (0x1000 ≤ a.toNat ∧ a.toNat < 0x1000 + 4 * Config.outCap))) →
      step { s with bus := .access .host (.read a n) :: rest } = .next { s with bus := rest, resp := .busError }) ∧
    (n = 4 ∧ a.toNat % 4 = 0 ∧
        ((0x004 ≤ a.toNat ∧ a.toNat ≤ 0x020) ∨ (0x1000 ≤ a.toNat ∧ a.toNat < 0x1000 + 4 * Config.outCap)) →
      ∃ v, step { s with bus := .access .host (.read a n) :: rest } =
        .next { s with bus := rest, resp := .data v }) ∧
    (¬ (n = 4 ∧ a.toNat = 0) → ∀ v : Word,
      step { s with bus := .access .host (.write a n v) :: rest } = .next { s with bus := rest, resp := .busError }) ∧
    (n = 4 ∧ a.toNat = 0 → ∀ v : Word,
      step { s with bus := .access .host (.write a n v) :: rest } = execute v { s with bus := rest, resp := .done })

/-- 20_memory.md R55: a read has no side effect, and repeating it gives the same response. -/
def Obligations.ReadsAreIdempotent : Prop :=
  ∀ (s : State) (rest : List BusEvent) (a : Offset) (n : Nat), ∃ r : Response,
    step { s with bus := .access .host (.read a n) :: rest } = .next { s with bus := rest, resp := r } ∧
    Host.Core.run Sys2Proof.core 2
      { s with bus := .access .host (.read a n) :: .access .host (.read a n) :: rest } =
        .next { s with bus := rest, resp := r }

/-- 60_exceptions.md R215: a second bus master is refused in every state (how the model tells masters apart is the
model's choice, log 6). -/
def Obligations.SecondHostRefused : Prop :=
  ∀ (s : State) (rest : List BusEvent) (a : Access),
    step { s with bus := .access .other a :: rest } = .refused .secondHost

/-- 70_reset_and_hazards.md R238: with one host the block never hangs: it performs every event waiting at its port, one a
step, and the port is then quiet. -/
def Obligations.EveryRunCompletes : Prop :=
  ∀ s : State, s.OneHost → ∃ t : State, Host.Core.run Sys2Proof.core s.bus.length s = .next t ∧ t.bus = []

/-- 20_memory.md R50: the 0x2000 addresses from BASE on, and no others, are the window's, by their offsets. -/
def Obligations.WindowAtBase : Prop :=
  (∀ a : Nat, a < 0x2000 → windowOffset (Config.base + a) = some (BitVec.ofNat 13 a)) ∧
  (∀ addr : Nat, addr < Config.base ∨ Config.base + 0x2000 ≤ addr → windowOffset addr = none)

/-! ## Reset -/

/-- 70_reset_and_hazards.md R230, R236: the hardware reset leaves the reset state from every state; an access pending
then is lost (its response is a free value: log 5). -/
def Obligations.HardwareResetRestoresReset : Prop :=
  ∀ (s : State) (rest : List BusEvent),
    step { s with bus := .reset none :: rest } =
      .next { State.reset with bus := rest, resp := s.resp, drawn := s.drawn } ∧
    ∀ a : Access, ∃ r : Response, step { s with bus := .reset (some a) :: rest } =
      .next { State.reset with bus := rest, resp := r, drawn := s.drawn + 1 }

/-- 70_reset_and_hazards.md R231: what the host reads after reset, register by register and word by word. -/
def Obligations.ResetAsTheHostSeesIt : Prop :=
  (∀ p ∈ ([(0x004, 0), (0x008, 0x0000FFFF), (0x00C, 0), (0x010, 0), (0x014, 0), (0x018, 0), (0x01C, 0), (0x020, 0)] :
      List (Offset × Word)), ∀ rest : List BusEvent,
    step { State.reset with bus := .access .host (.read p.1 4) :: rest } =
      .next { State.reset with bus := rest, resp := .data p.2 }) ∧
  ∀ (i : Nat) (rest : List BusEvent), i < Config.outCap →
    step { State.reset with bus := .access .host (.read (BitVec.ofNat 13 (0x1000 + 4 * i)) 4) :: rest } =
      .next { State.reset with bus := rest, resp := .data 0 }

/-- 10_state.md R47: the invariants hold at reset. -/
def Obligations.InvariantHoldsAtReset : Prop := State.reset.Inv

/-! ## Whole-machine properties -/

/-- 10_state.md R47: every step keeps the invariants, from every state that has them. -/
def Obligations.InvariantKeptByStep : Prop := ∀ s t : State, s.Inv → step s = .next t → t.Inv

/-- 40_crc.md R108: after commands with no CLEAR and no CRC.INIT among them, the register holds the fold of CrcStep over
exactly the bytes fed, in order; a command that faults feeds none. -/
def Obligations.CrcIsFoldOfFedBytes : Prop :=
  ∀ (is : List Instr) (s : State), (∀ i ∈ is, i ≠ .clear ∧ i ≠ .crcInit) →
    ∃ t, execAll is s = .next t ∧ t.crc = crcFeed s.crc (fedBytesAll is s)

/-- 40_crc.md R108, second corollary: with no CRC.BYTE, CRC.INIT or CRC.EMIT, the register stays the checksum of the whole
output. -/
def Obligations.CrcCoversOutput : Prop :=
  ∀ (is : List Instr) (s : State), s.Inv → s.crc = crc16 s.output →
    (∀ i ∈ is, i ≠ .crcInit ∧ i ≠ .crcEmit ∧ ∀ b, i ≠ .crcByte b) →
    ∃ t, execAll is s = .next t ∧ t.Inv ∧ t.crc = crc16 t.output

/-- 41_tlv.md R126: `FIELD t, v` at top level appends exactly `Enc(t, v)`, feeds it to the CRC and leaves no field open. -/
def Obligations.FieldAppendsItsEncoding : Prop :=
  ∀ (t : Tag) (v : List Byte) (s : State), s.Inv → s.fault = false → s.copen = false → s.fopen = false →
    isDigitTag t = true → v.length ≤ 99 → s.olen + v.length + 4 ≤ Config.outCap →
    ∃ u, execAll (expandField t v) s = .next u ∧ u.output = s.output ++ enc t v ∧
      u = { s with
        vbuf := u.vbuf
        ftag := t
        flen := 0
        obuf := u.obuf
        olen := s.olen + v.length + 4
        crc := crcFeed s.crc (enc t v) }

/-- 41_tlv.md R126: with 100 characters or more, `FIELD t, v` faults with ValueTooLong at the 100th and appends nothing.
At top level; inside a composite it is `CompositeWithLongValueFaults`. -/
def Obligations.LongFieldFaults : Prop :=
  ∀ (t : Tag) (v : List Byte) (s : State), s.fault = false → s.copen = false → s.fopen = false →
    isDigitTag t = true → 100 ≤ v.length →
    ∃ u, execAll (expandField t v) s = .next u ∧
      u = { s with
        fopen := true
        ftag := t
        flen := 99
        vbuf := u.vbuf
        fault := true
        errcode := faultNumber .valueTooLong
        errcmd := encode (.fldByte (v.getD 99 0)) }

/-- 42_composite.md R144: `COMPOSITE` at top level appends exactly the outer field that wraps the sub-fields' encodings in
the written order, and feeds it to the CRC. -/
def Obligations.CompositeAppendsItsEncoding : Prop :=
  ∀ (t : Tag) (subs : List (Tag × List Byte)) (s : State), s.Inv → s.fault = false → s.copen = false →
    s.fopen = false → isDigitTag t = true → (∀ p ∈ subs, isDigitTag p.1 = true) →
    (subs.flatMap fun p => enc p.1 p.2).length ≤ 99 →
    s.olen + (subs.flatMap fun p => enc p.1 p.2).length + 4 ≤ Config.outCap →
    ∃ u, execAll (expandComposite t subs) s = .next u ∧
      u.output = s.output ++ enc t (subs.flatMap fun p => enc p.1 p.2) ∧
      u = { s with
        vbuf := u.vbuf
        ftag := u.ftag
        flen := 0
        cbuf := u.cbuf
        ctag := t
        clen := 0
        obuf := u.obuf
        olen := s.olen + (subs.flatMap fun p => enc p.1 p.2).length + 4
        crc := crcFeed s.crc (enc t (subs.flatMap fun p => enc p.1 p.2)) }

/-- 42_composite.md R144: if the sub-fields' encodings pass 99 bytes, `COMPOSITE` faults with ValueTooLong at the FLD.CLOSE
of the first sub-field that passes the bound, and nothing of the composite reaches the output or the CRC. Values of at most
99 characters here; `CompositeWithLongValueFaults` has the longer ones. -/
def Obligations.LongCompositeFaults : Prop :=
  ∀ (t : Tag) (subs : List (Tag × List Byte)) (s : State), s.fault = false → s.copen = false → s.fopen = false →
    isDigitTag t = true → (∀ p ∈ subs, isDigitTag p.1 = true ∧ p.2.length ≤ 99) →
    99 < (subs.flatMap fun p => enc p.1 p.2).length →
    ∃ u pre sub post, execAll (expandComposite t subs) s = .next u ∧ subs = pre ++ sub :: post ∧
      (pre.flatMap fun p => enc p.1 p.2).length ≤ 99 ∧
      99 < (pre.flatMap fun p => enc p.1 p.2).length + (enc sub.1 sub.2).length ∧
      u = { s with
        fopen := true
        ftag := sub.1
        flen := sub.2.length
        vbuf := u.vbuf
        copen := true
        ctag := t
        clen := (pre.flatMap fun p => enc p.1 p.2).length
        cbuf := u.cbuf
        fault := true
        errcode := faultNumber .valueTooLong
        errcmd := encode .fldClose }

/-- 42_composite.md R144 with 41_tlv.md R126 inside it: where a sub-value has 100 characters or more and the encodings before
it fit, `COMPOSITE` faults with ValueTooLong at that value's 100th character, and nothing of the composite reaches the
output or the CRC. -/
def Obligations.CompositeWithLongValueFaults : Prop :=
  ∀ (t : Tag) (pre : List (Tag × List Byte)) (sub : Tag × List Byte) (post : List (Tag × List Byte)) (s : State),
    s.fault = false → s.copen = false → s.fopen = false → isDigitTag t = true → (∀ p ∈ pre, isDigitTag p.1 = true) →
    isDigitTag sub.1 = true → (pre.flatMap fun p => enc p.1 p.2).length ≤ 99 → 100 ≤ sub.2.length →
    ∃ u, execAll (expandComposite t (pre ++ sub :: post)) s = .next u ∧
      u = { s with
        fopen := true
        ftag := sub.1
        flen := 99
        vbuf := u.vbuf
        copen := true
        ctag := t
        clen := (pre.flatMap fun p => enc p.1 p.2).length
        cbuf := u.cbuf
        fault := true
        errcode := faultNumber .valueTooLong
        errcmd := encode (.fldByte (sub.2.getD 99 0)) }

/-- 43_output_control.md R163: where the register is the checksum of the output, `CHECKSUM t` appends the prefix
t0 t1 '0' '4' and then the rendering of the checksum of everything up to and including that prefix. -/
def Obligations.ChecksumFieldClosesPayload : Prop :=
  ∀ (t : Tag) (s : State), s.Inv → s.fault = false → s.copen = false → s.fopen = false →
    s.crc = crc16 s.output → s.olen + 8 ≤ Config.outCap →
    ∃ u, execAll (expandChecksum t) s = .next u ∧ u.fault = false ∧
      u.output = s.output ++ [tagFirst t, tagSecond t, 0x30, 0x34] ++
        hex (crc16 (s.output ++ [tagFirst t, tagSecond t, 0x30, 0x34]))

/-- 10_state.md R46, 93_implementation_defined.md I6, I7: buffer bytes at or above their counts never make a difference
that the host could see: not to a response, not to a register, not to a byte that is emitted later. -/
def Obligations.HiddenBytesNeverObserved : Prop :=
  ∀ s t s' t' : State, s.Inv → t.Inv → SameToHost s t → step s = .next s' → step t = .next t' → SameToHost s' t'

/-! ## Assembler -/

/-- 30_encoding.md R77, R78: a line in the plain layout of `WritesLine`, of any command or pseudo-instruction and with any
operand, gives exactly the words of the commands it stands for, with or without a comment right behind it. Four readings in
it are the model's choices (log 12): COMPOSITE with no sub-field is written without a comma, a semicolon inside a literal is
a character, a character literal may hold a quote, and a comment needs no blank before it. Not in it are the other texts
that log 12 lets the assembler accept: lower-case hexadecimal digits, leading zeros, and blanks placed otherwise than in the
layout, those before a comment among them. -/
def Obligations.WrittenLinesAssemble : Prop :=
  ∀ (line : List Char) (is : List Instr), WritesLine line is →
    ∀ tail : List Char, (tail = [] ∨ ∃ c, tail = ';' :: c) → assembleLine (line ++ tail) = some (is.map encode)

/-- 30_encoding.md R77: what the assembler refuses: a byte operand above 255; a tag literal that is not two characters; a
literal with a character outside 0x20 to 0x7E; an operand after a form N mnemonic; a word in mnemonic characters that is no
mnemonic; a mnemonic in lower case. -/
def Obligations.AssemblerRefusesIllFormedLines : Prop :=
  (∀ m ∈ ["CRC.BYTE ".toList, "FLD.BYTE ".toList, "OUT.BYTE ".toList], ∀ n : Nat, 255 < n →
    assembleLine (m ++ Nat.toDigits 10 n) = none) ∧
  (∀ m ∈ ["FLD.OPEN ".toList, "CMP.OPEN ".toList, "CHECKSUM ".toList], ∀ cs : List Char,
    (∀ c ∈ cs, c.toNat ≠ 0x22) → cs.length ≠ 2 → assembleLine (m ++ quoted cs) = none) ∧
  (∀ m ∈ ["FLD.OPEN ".toList, "CMP.OPEN ".toList, "CHECKSUM ".toList, "OUT ".toList, "CRCSTR ".toList],
    ∀ cs : List Char, (∀ c ∈ cs, c.toNat ≠ 0x22) → (∃ c ∈ cs, c.toNat < 0x20 ∨ 0x7E < c.toNat) →
    assembleLine (m ++ quoted cs) = none) ∧
  (∀ m ∈ ["NOP ".toList, "CLEAR ".toList, "CRC.INIT ".toList, "CRC.EMIT ".toList, "FLD.CLOSE ".toList,
      "CMP.CLOSE ".toList], ∀ (c : Char) (rest : List Char), c ≠ ' ' → c ≠ '\t' → c ≠ ';' →
    assembleLine (m ++ c :: rest) = none) ∧
  (∀ (m rest : List Char), m ≠ [] → m.all mnemonicChar = true → m ∉ mnemonics → assembleLine (m ++ ' ' :: rest) = none) ∧
  (∀ (c : Char) (rest : List Char), 0x61 ≤ c.toNat → c.toNat ≤ 0x7A → assembleLine (c :: rest) = none)

/-- 30_encoding.md R77: one line after another: a text assembles to the words of its lines in order, it is refused when one
of its lines is (log 12), and every word of a text that is accepted is a legal command. -/
def Obligations.TextAssemblesLineByLine : Prop :=
  (∀ lines : List (List Char), lines ≠ [] → (∀ l ∈ lines, '\n' ∉ l) →
    assemble (['\n'].intercalate lines) = (lines.mapM assembleLine).map List.flatten) ∧
  ∀ (text : List Char) (ws : List Word), assemble text = some ws → ∀ w ∈ ws, ∃ i, decode w = .ok i
end

