-- ==== Sys2Proof/Laws/Assembler.lean ====
section
/-! SUPPORT. What the assembler's readers answer on the texts of 30_encoding.md R77: one lemma per reader. -/

namespace Sys2Proof.Machine

/-- A tag's two characters side by side, `T = T0 || T1` (30_encoding.md R72). -/
theorem tagOf_eq_append (a b : Byte) : tagOf a b = a ++ b := by
  refine BitVec.eq_of_getLsbD_eq fun k hk => ?_
  rw [show (a ++ b : BitVec (8 + 8)).getLsbD k = _ from BitVec.getLsbD_append]
  interval_cases k <;> simp [tagOf]

theorem takeWhile_append_stop {p : Char → Bool} (a : List Char) (x : Char) (r : List Char) (h : ∀ c ∈ a, p c = true)
    (hx : p x = false) : (a ++ x :: r).takeWhile p = a ∧ (a ++ x :: r).dropWhile p = x :: r := by
  induction a with
  | nil => simp [hx]
  | cons c a ih =>
    have := ih fun d hd => h d (by simp [hd])
    simp [h c (by simp), this.1, this.2]

@[simp] theorem skipBlanks_blank (cs : List Char) : skipBlanks (' ' :: cs) = skipBlanks cs := by
  simp [skipBlanks]

@[simp] theorem skipBlanks_quoted (cs r : List Char) : skipBlanks (quoted cs ++ r) = quoted cs ++ r := by
  simp [quoted, skipBlanks]

@[simp] theorem expectChar_blank (c : Char) (cs : List Char) : expectChar c (' ' :: cs) = expectChar c cs := by
  simp [expectChar]

/-- No character of a string literal is the double quote (30_encoding.md R77). -/
theorem toNat_ne_quote_of_mem_stringLiteral {cs : List Char} (h : stringLiteral cs = true) :
    ∀ c ∈ cs, c.toNat ≠ 0x22 := by
  intro c hc
  have := List.all_eq_true.mp h c hc
  simp only [literalChar, Bool.and_eq_true, bne_iff_ne] at this
  exact this.2

/-- Reading a quoted text that holds no double quote: the text if it is a string literal, and a refusal if not. -/
theorem readString_quoted {cs r pre : List Char} (h : ∀ c ∈ cs, c.toNat ≠ 0x22) (hp : skipBlanks pre = quoted cs ++ r) :
    readString pre = if stringLiteral cs then some (cs, r) else none := by
  have e : quoted cs ++ r = Char.ofNat 0x22 :: (cs ++ Char.ofNat 0x22 :: r) := by simp [quoted]
  have hw := takeWhile_append_stop (p := fun c => c.toNat != 0x22) cs (Char.ofNat 0x22) r
    (fun c hc => by simpa using h c hc) (by decide)
  have hq : skipBlanks (Char.ofNat 0x22 :: r) = Char.ofNat 0x22 :: r := by simp [skipBlanks]
  unfold readString expectChar
  rw [hp, e]
  simp only [if_true, Option.bind_eq_bind, Option.bind_some, hw.1, hw.2, hq]

/-- Reading a tag literal gives its two characters side by side. -/
theorem readTag_quoted {c d : Char} {r pre : List Char} (h : stringLiteral [c, d] = true)
    (hp : skipBlanks pre = quoted [c, d] ++ r) : readTag pre = some (byteOfChar c ++ byteOfChar d, r) := by
  unfold readTag
  rw [readString_quoted (toNat_ne_quote_of_mem_stringLiteral h) hp, h]
  simp [tagOfChars, tagLiteral, h, tagOf_eq_append]

/-- Reading a string operand gives one byte for each character. -/
theorem readBytes_quoted {cs r pre : List Char} (h : stringLiteral cs = true) (hp : skipBlanks pre = quoted cs ++ r) :
    readBytes pre = some (cs.map byteOfChar, r) := by
  unfold readBytes
  rw [readString_quoted (toNat_ne_quote_of_mem_stringLiteral h) hp, h]
  rfl

/-- A line that begins with mnemonic characters is read by that mnemonic. -/
theorem readLine_append {m rest : List Char} (hm : m ≠ []) (hc : m.all mnemonicChar = true)
    (hr : ∀ c, rest.head? = some c → mnemonicChar c = false) : readLine (m ++ rest) = readOperands m rest := by
  obtain ⟨x, xs, rfl⟩ := List.exists_cons_of_ne_nil hm
  have hall := List.all_eq_true.mp hc
  have hx := hall x (by simp)
  have h1 : x ≠ ' ' := by rintro rfl; simp [mnemonicChar] at hx
  have h2 : x ≠ '\t' := by rintro rfl; simp [mnemonicChar] at hx
  have h3 : x ≠ ';' := by rintro rfl; simp [mnemonicChar] at hx
  have hs : skipBlanks (x :: xs ++ rest) = x :: xs ++ rest := by simp [skipBlanks, h1, h2]
  have he : atLineEnd (x :: xs ++ rest) = false := by unfold atLineEnd; rw [hs]; simp [h3]
  unfold readLine
  rw [he, hs]
  cases rest with
  | nil =>
    rw [List.append_nil, List.takeWhile_eq_self_iff.mpr hall, List.dropWhile_eq_nil_iff.mpr hall]
    rfl
  | cons y r =>
    have hw := takeWhile_append_stop (p := mnemonicChar) (x :: xs) y r hall (hr y rfl)
    rw [hw.1, hw.2]
    rfl

/-- A word that is no mnemonic is refused. -/
theorem readOperands_of_not_mem {m : List Char} (rest : List Char) (h : m ∉ mnemonics) : readOperands m rest = none := by
  simp only [mnemonics, List.mem_cons, List.not_mem_nil, or_false, not_or] at h
  simp only [readOperands, h, if_false]

/-- A line feed ends a line. -/
theorem splitLines_append (l rest : List Char) (h : '\n' ∉ l) :
    splitLines (l ++ '\n' :: rest) = l :: splitLines rest := by
  induction l with
  | nil => simp [splitLines]
  | cons c l ih =>
    simp only [List.mem_cons, not_or] at h
    simp only [List.cons_append, splitLines, ih h.2]
    rw [if_neg (by simpa [eq_comm] using h.1)]

end Sys2Proof.Machine
end

