-- ==== Sys2Proof/Laws/Decode.lean ====
section
/-! SUPPORT. The fields of the three forms of command word (30_encoding.md R71). -/

namespace Sys2Proof

theorem opcodeField_wordN (op : BitVec 4) : opcodeField (wordN op) = op := by
  revert op; decide

theorem operand_wordN (op : BitVec 4) : (wordN op).extractLsb' 0 28 = 0 := by
  revert op; decide

theorem opcodeField_wordB (op : BitVec 4) (b : Byte) : opcodeField (wordB op b) = op := by
  refine BitVec.eq_of_getLsbD_eq fun k hk => ?_
  interval_cases k <;> simp [opcodeField, wordB, wordN]

theorem reserved_wordB (op : BitVec 4) (b : Byte) : (wordB op b).extractLsb' 8 20 = 0 := by
  refine BitVec.eq_of_getLsbD_eq fun k hk => ?_
  interval_cases k <;> simp [wordB, wordN]

theorem byte_wordB (op : BitVec 4) (b : Byte) : (wordB op b).extractLsb' 0 8 = b := by
  refine BitVec.eq_of_getLsbD_eq fun k hk => ?_
  interval_cases k <;> simp [wordB, wordN]

theorem opcodeField_wordT (op : BitVec 4) (t : Tag) : opcodeField (wordT op t) = op := by
  refine BitVec.eq_of_getLsbD_eq fun k hk => ?_
  interval_cases k <;> simp [opcodeField, wordT, wordN]

theorem reserved_wordT (op : BitVec 4) (t : Tag) : (wordT op t).extractLsb' 16 12 = 0 := by
  refine BitVec.eq_of_getLsbD_eq fun k hk => ?_
  interval_cases k <;> simp [wordT, wordN]

theorem tag_wordT (op : BitVec 4) (t : Tag) : (wordT op t).extractLsb' 0 16 = t := by
  refine BitVec.eq_of_getLsbD_eq fun k hk => ?_
  interval_cases k <;> simp [wordT, wordN]

end Sys2Proof
end

