-- ==== Sys2Proof/Laws/Memory.lean ====
section
/-! SUPPORT. The buffers: every operation keeps the canonical form and the capacity, a read after a write gives the byte
written and leaves every other index alone, and canonical buffers with equal contents are equal. -/

namespace Sys2Proof.Machine

@[simp] theorem Memory.read_nil (a : Nat) : Memory.read [] a = 0 := rfl

theorem Memory.wfFrom_mono {lo lo' : Nat} (h : lo' ≤ lo) : ∀ {m : Memory}, Memory.wfFrom lo m = true →
    Memory.wfFrom lo' m = true
  | [], _ => rfl
  | (_, _) :: _, hm => by
    simp only [Memory.wfFrom, Bool.and_eq_true, decide_eq_true_eq] at hm ⊢
    exact ⟨⟨h.trans hm.1.1, hm.1.2⟩, hm.2⟩

/-- Below the first index a canonical buffer may list, every byte reads as unlisted. -/
theorem Memory.read_of_lt {lo a : Nat} (h : a < lo) : ∀ {m : Memory}, Memory.wfFrom lo m = true → Memory.read m a = 0
  | [], _ => rfl
  | (k, _) :: _, hm => by
    simp only [Memory.wfFrom, Bool.and_eq_true, decide_eq_true_eq] at hm
    have hk : a < k := h.trans_le hm.1.1
    simp [Memory.read, hk.ne, hk, unlistedByte]

theorem Memory.wfFrom_cons {lo a : Nat} {b : Byte} {m : Memory} (h : lo ≤ a) (hm : Memory.wfFrom (a + 1) m = true) :
    Memory.wfFrom lo (Memory.cons a b m) = true := by
  unfold Memory.cons
  split
  · exact Memory.wfFrom_mono (by omega) hm
  · rename_i hb
    simp [Memory.wfFrom, h, hb, hm]

theorem Memory.wfFrom_write {lo a : Nat} (b : Byte) (h : lo ≤ a) : ∀ {m : Memory}, Memory.wfFrom lo m = true →
    Memory.wfFrom lo (Memory.write m a b) = true
  | [], _ => Memory.wfFrom_cons h rfl
  | (k, v) :: m, hm => by
    have hm' := hm
    simp only [Memory.wfFrom, Bool.and_eq_true, decide_eq_true_eq] at hm
    unfold Memory.write
    split
    · rename_i hlt
      refine Memory.wfFrom_cons h ?_
      simp only [Memory.wfFrom, Bool.and_eq_true, decide_eq_true_eq]
      exact ⟨⟨hlt, hm.1.2⟩, hm.2⟩
    · split
      · rename_i heq
        exact Memory.wfFrom_cons h (heq ▸ hm.2)
      · simp only [Memory.wfFrom, Bool.and_eq_true, decide_eq_true_eq]
        exact ⟨hm.1, Memory.wfFrom_write b (by omega) hm.2⟩

/-- A write keeps the canonical form. -/
theorem Memory.wf_write {m : Memory} (a : Nat) (b : Byte) (h : Memory.wf m = true) :
    Memory.wf (Memory.write m a b) = true := Memory.wfFrom_write b (Nat.zero_le a) h

theorem Memory.below_cons {cap a : Nat} {b : Byte} {m : Memory} (ha : a < cap) (hm : Memory.below cap m = true) :
    Memory.below cap (Memory.cons a b m) = true := by
  unfold Memory.cons
  split
  · exact hm
  · simp only [Memory.below, List.all_cons, Bool.and_eq_true, decide_eq_true_eq] at hm ⊢
    exact ⟨ha, hm⟩

/-- A write below the capacity keeps the buffer below it. -/
theorem Memory.below_write {cap a : Nat} (b : Byte) (ha : a < cap) : ∀ {m : Memory}, Memory.below cap m = true →
    Memory.below cap (Memory.write m a b) = true
  | [], hm => Memory.below_cons ha hm
  | (k, v) :: m, hm => by
    have hm' := hm
    simp only [Memory.below, List.all_cons, Bool.and_eq_true, decide_eq_true_eq] at hm'
    unfold Memory.write
    split
    · exact Memory.below_cons ha hm
    · split
      · exact Memory.below_cons ha hm'.2
      · simp only [Memory.below, List.all_cons, Bool.and_eq_true, decide_eq_true_eq]
        exact ⟨hm'.1, Memory.below_write b ha hm'.2⟩

theorem Memory.read_cons {a c : Nat} {b : Byte} {m : Memory} (hm : Memory.wfFrom (a + 1) m = true) :
    Memory.read (Memory.cons a b m) c = if c = a then b else Memory.read m c := by
  unfold Memory.cons
  split
  · rename_i hb
    split
    · rename_i hc
      rw [Memory.read_of_lt (by omega) hm, hb]; rfl
    · rfl
  · by_cases hc : c = a
    · simp [Memory.read, hc]
    · by_cases hlt : c < a
      · simp [Memory.read, hc, hlt, Memory.read_of_lt (show c < a + 1 by omega) hm, unlistedByte]
      · simp [Memory.read, hc, hlt]

theorem Memory.read_write_from {lo a : Nat} (b : Byte) (c : Nat) : ∀ {m : Memory}, Memory.wfFrom lo m = true →
    Memory.read (Memory.write m a b) c = if c = a then b else Memory.read m c
  | [], _ => Memory.read_cons rfl
  | (k, v) :: m, hm => by
    simp only [Memory.wfFrom, Bool.and_eq_true, decide_eq_true_eq] at hm
    unfold Memory.write
    split
    · rename_i hlt
      refine Memory.read_cons ?_
      simp only [Memory.wfFrom, Bool.and_eq_true, decide_eq_true_eq]
      exact ⟨⟨hlt, hm.1.2⟩, hm.2⟩
    · split
      · rename_i heq
        subst heq
        rw [Memory.read_cons hm.2]
        by_cases hc : c = a
        · simp [hc]
        · by_cases hlt : c < a
          · simp [Memory.read, hc, hlt, Memory.read_of_lt (show c < a + 1 by omega) hm.2, unlistedByte]
          · simp [Memory.read, hc, hlt]
      · by_cases hck : c = k
        · subst hck
          rename_i h1 h2
          simp [Memory.read, Ne.symm h2]
        · by_cases hlt : c < k
          · have : c ≠ a := by omega
            simp [Memory.read, hck, hlt, this]
          · simp [Memory.read, hck, hlt, Memory.read_write_from b c hm.2]

/-- Reading after a write: the byte written at its index, what was there before at every other. -/
theorem Memory.read_write {m : Memory} (a : Nat) (b : Byte) (c : Nat) (h : Memory.wf m = true) :
    Memory.read (Memory.write m a b) c = if c = a then b else Memory.read m c := Memory.read_write_from b c h

theorem Memory.eq_of_read_from {lo : Nat} : ∀ {m m' : Memory}, Memory.wfFrom lo m = true →
    Memory.wfFrom lo m' = true → (∀ a, Memory.read m a = Memory.read m' a) → m = m'
  | [], [], _, _, _ => rfl
  | [], (k, v) :: m', _, h', he => by
    have := he k
    simp only [Memory.wfFrom, Bool.and_eq_true, bne_iff_ne, ne_eq] at h'
    simp [Memory.read] at this
    exact absurd this.symm h'.1.2
  | (k, v) :: m, [], h, _, he => by
    have := he k
    simp only [Memory.wfFrom, Bool.and_eq_true, bne_iff_ne, ne_eq] at h
    simp [Memory.read] at this
    exact absurd this h.1.2
  | (k, v) :: m, (k', v') :: m', h, h', he => by
    simp only [Memory.wfFrom, Bool.and_eq_true, bne_iff_ne, ne_eq, decide_eq_true_eq] at h h'
    have hkk : k = k' := by
      rcases Nat.lt_trichotomy k k' with hlt | heq | hlt
      · have := he k
        simp [Memory.read, hlt.ne, hlt] at this
        exact absurd this h.1.2
      · exact heq
      · have := he k'
        simp [Memory.read, hlt.ne, hlt] at this
        exact absurd this.symm h'.1.2
    subst hkk
    have hv : v = v' := by simpa [Memory.read] using he k
    subst hv
    have htail : ∀ a, Memory.read m a = Memory.read m' a := by
      intro a
      by_cases ha : a ≤ k
      · rw [Memory.read_of_lt (by omega) h.2, Memory.read_of_lt (by omega) h'.2]
      · have := he a
        simpa [Memory.read, show a ≠ k by omega, show ¬ a < k by omega] using this
    rw [Memory.eq_of_read_from h.2 h'.2 htail]

/-- Canonical buffers with equal contents are equal. -/
theorem Memory.eq_of_read {m m' : Memory} (h : Memory.wf m = true) (h' : Memory.wf m' = true)
    (he : ∀ a, Memory.read m a = Memory.read m' a) : m = m' := Memory.eq_of_read_from h h' he

@[simp] theorem Memory.length_firstBytes (m : Memory) (n : Nat) : (Memory.firstBytes m n).length = n := by
  simp [Memory.firstBytes]

@[simp] theorem Memory.firstBytes_zero (m : Memory) : Memory.firstBytes m 0 = [] := rfl

theorem Memory.firstBytes_succ (m : Memory) (n : Nat) :
    Memory.firstBytes m (n + 1) = Memory.firstBytes m n ++ [Memory.read m n] := by
  simp [Memory.firstBytes, List.range_succ]

/-- A buffer's first bytes depend on nothing else of it. -/
theorem Memory.firstBytes_congr {m m' : Memory} {n : Nat} (h : ∀ a < n, Memory.read m a = Memory.read m' a) :
    Memory.firstBytes m n = Memory.firstBytes m' n := by
  simp only [Memory.firstBytes]
  exact List.map_congr_left fun a ha => h a (List.mem_range.mp ha)

/-- A write at the count appends one byte to the counted bytes. -/
theorem Memory.firstBytes_write {m : Memory} (n : Nat) (b : Byte) (h : Memory.wf m = true) :
    Memory.firstBytes (Memory.write m n b) (n + 1) = Memory.firstBytes m n ++ [b] := by
  rw [Memory.firstBytes_succ, Memory.read_write n b n h, if_pos rfl]
  congr 1
  refine Memory.firstBytes_congr fun a ha => ?_
  rw [Memory.read_write n b a h, if_neg (by omega)]

end Sys2Proof.Machine
end

