-- ==== Sys2Proof/Laws/State.lean ====
section
/-! SUPPORT. One lemma per field per state update, true by rfl: no later proof unfolds a record update. -/

namespace Sys2Proof.Machine

/-! The reset state (10_state.md R20). -/
@[simp] theorem State.reset_crc : State.reset.crc = 0xFFFF := rfl
@[simp] theorem State.reset_fopen : State.reset.fopen = false := rfl
@[simp] theorem State.reset_ftag : State.reset.ftag = 0 := rfl
@[simp] theorem State.reset_flen : State.reset.flen = 0 := rfl
@[simp] theorem State.reset_vbuf : State.reset.vbuf = [] := rfl
@[simp] theorem State.reset_copen : State.reset.copen = false := rfl
@[simp] theorem State.reset_ctag : State.reset.ctag = 0 := rfl
@[simp] theorem State.reset_clen : State.reset.clen = 0 := rfl
@[simp] theorem State.reset_cbuf : State.reset.cbuf = [] := rfl
@[simp] theorem State.reset_olen : State.reset.olen = 0 := rfl
@[simp] theorem State.reset_obuf : State.reset.obuf = [] := rfl
@[simp] theorem State.reset_fault : State.reset.fault = false := rfl
@[simp] theorem State.reset_errcode : State.reset.errcode = 0 := rfl
@[simp] theorem State.reset_errcmd : State.reset.errcmd = 0 := rfl
@[simp] theorem State.reset_bus : State.reset.bus = [] := rfl
@[simp] theorem State.reset_resp : State.reset.resp = .quiet := rfl
@[simp] theorem State.reset_drawn : State.reset.drawn = 0 := rfl

/-! `State.raise` -/
@[simp] theorem State.raise_crc (s : State) (c : FaultCode) (w : Word) : (s.raise c w).crc = s.crc := rfl
@[simp] theorem State.raise_fopen (s : State) (c : FaultCode) (w : Word) : (s.raise c w).fopen = s.fopen := rfl
@[simp] theorem State.raise_ftag (s : State) (c : FaultCode) (w : Word) : (s.raise c w).ftag = s.ftag := rfl
@[simp] theorem State.raise_flen (s : State) (c : FaultCode) (w : Word) : (s.raise c w).flen = s.flen := rfl
@[simp] theorem State.raise_vbuf (s : State) (c : FaultCode) (w : Word) : (s.raise c w).vbuf = s.vbuf := rfl
@[simp] theorem State.raise_copen (s : State) (c : FaultCode) (w : Word) : (s.raise c w).copen = s.copen := rfl
@[simp] theorem State.raise_ctag (s : State) (c : FaultCode) (w : Word) : (s.raise c w).ctag = s.ctag := rfl
@[simp] theorem State.raise_clen (s : State) (c : FaultCode) (w : Word) : (s.raise c w).clen = s.clen := rfl
@[simp] theorem State.raise_cbuf (s : State) (c : FaultCode) (w : Word) : (s.raise c w).cbuf = s.cbuf := rfl
@[simp] theorem State.raise_olen (s : State) (c : FaultCode) (w : Word) : (s.raise c w).olen = s.olen := rfl
@[simp] theorem State.raise_obuf (s : State) (c : FaultCode) (w : Word) : (s.raise c w).obuf = s.obuf := rfl
@[simp] theorem State.raise_fault (s : State) (c : FaultCode) (w : Word) : (s.raise c w).fault = true := rfl
@[simp] theorem State.raise_errcode (s : State) (c : FaultCode) (w : Word) : (s.raise c w).errcode = faultNumber c := rfl
@[simp] theorem State.raise_errcmd (s : State) (c : FaultCode) (w : Word) : (s.raise c w).errcmd = w := rfl
@[simp] theorem State.raise_bus (s : State) (c : FaultCode) (w : Word) : (s.raise c w).bus = s.bus := rfl
@[simp] theorem State.raise_resp (s : State) (c : FaultCode) (w : Word) : (s.raise c w).resp = s.resp := rfl
@[simp] theorem State.raise_drawn (s : State) (c : FaultCode) (w : Word) : (s.raise c w).drawn = s.drawn := rfl

/-! `State.resetBlock` -/
@[simp] theorem State.resetBlock_crc (s : State) : (s.resetBlock).crc = 0xFFFF := rfl
@[simp] theorem State.resetBlock_fopen (s : State) : (s.resetBlock).fopen = false := rfl
@[simp] theorem State.resetBlock_ftag (s : State) : (s.resetBlock).ftag = 0 := rfl
@[simp] theorem State.resetBlock_flen (s : State) : (s.resetBlock).flen = 0 := rfl
@[simp] theorem State.resetBlock_vbuf (s : State) : (s.resetBlock).vbuf = [] := rfl
@[simp] theorem State.resetBlock_copen (s : State) : (s.resetBlock).copen = false := rfl
@[simp] theorem State.resetBlock_ctag (s : State) : (s.resetBlock).ctag = 0 := rfl
@[simp] theorem State.resetBlock_clen (s : State) : (s.resetBlock).clen = 0 := rfl
@[simp] theorem State.resetBlock_cbuf (s : State) : (s.resetBlock).cbuf = [] := rfl
@[simp] theorem State.resetBlock_olen (s : State) : (s.resetBlock).olen = 0 := rfl
@[simp] theorem State.resetBlock_obuf (s : State) : (s.resetBlock).obuf = [] := rfl
@[simp] theorem State.resetBlock_fault (s : State) : (s.resetBlock).fault = false := rfl
@[simp] theorem State.resetBlock_errcode (s : State) : (s.resetBlock).errcode = 0 := rfl
@[simp] theorem State.resetBlock_errcmd (s : State) : (s.resetBlock).errcmd = 0 := rfl
@[simp] theorem State.resetBlock_bus (s : State) : (s.resetBlock).bus = s.bus := rfl
@[simp] theorem State.resetBlock_resp (s : State) : (s.resetBlock).resp = s.resp := rfl
@[simp] theorem State.resetBlock_drawn (s : State) : (s.resetBlock).drawn = s.drawn := rfl

/-! `State.setCrc` -/
@[simp] theorem State.setCrc_crc (s : State) (c : Crc) : (s.setCrc c).crc = c := rfl
@[simp] theorem State.setCrc_fopen (s : State) (c : Crc) : (s.setCrc c).fopen = s.fopen := rfl
@[simp] theorem State.setCrc_ftag (s : State) (c : Crc) : (s.setCrc c).ftag = s.ftag := rfl
@[simp] theorem State.setCrc_flen (s : State) (c : Crc) : (s.setCrc c).flen = s.flen := rfl
@[simp] theorem State.setCrc_vbuf (s : State) (c : Crc) : (s.setCrc c).vbuf = s.vbuf := rfl
@[simp] theorem State.setCrc_copen (s : State) (c : Crc) : (s.setCrc c).copen = s.copen := rfl
@[simp] theorem State.setCrc_ctag (s : State) (c : Crc) : (s.setCrc c).ctag = s.ctag := rfl
@[simp] theorem State.setCrc_clen (s : State) (c : Crc) : (s.setCrc c).clen = s.clen := rfl
@[simp] theorem State.setCrc_cbuf (s : State) (c : Crc) : (s.setCrc c).cbuf = s.cbuf := rfl
@[simp] theorem State.setCrc_olen (s : State) (c : Crc) : (s.setCrc c).olen = s.olen := rfl
@[simp] theorem State.setCrc_obuf (s : State) (c : Crc) : (s.setCrc c).obuf = s.obuf := rfl
@[simp] theorem State.setCrc_fault (s : State) (c : Crc) : (s.setCrc c).fault = s.fault := rfl
@[simp] theorem State.setCrc_errcode (s : State) (c : Crc) : (s.setCrc c).errcode = s.errcode := rfl
@[simp] theorem State.setCrc_errcmd (s : State) (c : Crc) : (s.setCrc c).errcmd = s.errcmd := rfl
@[simp] theorem State.setCrc_bus (s : State) (c : Crc) : (s.setCrc c).bus = s.bus := rfl
@[simp] theorem State.setCrc_resp (s : State) (c : Crc) : (s.setCrc c).resp = s.resp := rfl
@[simp] theorem State.setCrc_drawn (s : State) (c : Crc) : (s.setCrc c).drawn = s.drawn := rfl

/-! `State.emitRaw` -/
@[simp] theorem State.emitRaw_crc (s : State) (b : Byte) : (s.emitRaw b).crc = s.crc := rfl
@[simp] theorem State.emitRaw_fopen (s : State) (b : Byte) : (s.emitRaw b).fopen = s.fopen := rfl
@[simp] theorem State.emitRaw_ftag (s : State) (b : Byte) : (s.emitRaw b).ftag = s.ftag := rfl
@[simp] theorem State.emitRaw_flen (s : State) (b : Byte) : (s.emitRaw b).flen = s.flen := rfl
@[simp] theorem State.emitRaw_vbuf (s : State) (b : Byte) : (s.emitRaw b).vbuf = s.vbuf := rfl
@[simp] theorem State.emitRaw_copen (s : State) (b : Byte) : (s.emitRaw b).copen = s.copen := rfl
@[simp] theorem State.emitRaw_ctag (s : State) (b : Byte) : (s.emitRaw b).ctag = s.ctag := rfl
@[simp] theorem State.emitRaw_clen (s : State) (b : Byte) : (s.emitRaw b).clen = s.clen := rfl
@[simp] theorem State.emitRaw_cbuf (s : State) (b : Byte) : (s.emitRaw b).cbuf = s.cbuf := rfl
@[simp] theorem State.emitRaw_olen (s : State) (b : Byte) : (s.emitRaw b).olen = s.olen + 1 := rfl
@[simp] theorem State.emitRaw_obuf (s : State) (b : Byte) : (s.emitRaw b).obuf = Memory.write s.obuf s.olen b := rfl
@[simp] theorem State.emitRaw_fault (s : State) (b : Byte) : (s.emitRaw b).fault = s.fault := rfl
@[simp] theorem State.emitRaw_errcode (s : State) (b : Byte) : (s.emitRaw b).errcode = s.errcode := rfl
@[simp] theorem State.emitRaw_errcmd (s : State) (b : Byte) : (s.emitRaw b).errcmd = s.errcmd := rfl
@[simp] theorem State.emitRaw_bus (s : State) (b : Byte) : (s.emitRaw b).bus = s.bus := rfl
@[simp] theorem State.emitRaw_resp (s : State) (b : Byte) : (s.emitRaw b).resp = s.resp := rfl
@[simp] theorem State.emitRaw_drawn (s : State) (b : Byte) : (s.emitRaw b).drawn = s.drawn := rfl

/-! `State.emit` -/
@[simp] theorem State.emit_crc (s : State) (b : Byte) : (s.emit b).crc = crcStep s.crc b := rfl
@[simp] theorem State.emit_fopen (s : State) (b : Byte) : (s.emit b).fopen = s.fopen := rfl
@[simp] theorem State.emit_ftag (s : State) (b : Byte) : (s.emit b).ftag = s.ftag := rfl
@[simp] theorem State.emit_flen (s : State) (b : Byte) : (s.emit b).flen = s.flen := rfl
@[simp] theorem State.emit_vbuf (s : State) (b : Byte) : (s.emit b).vbuf = s.vbuf := rfl
@[simp] theorem State.emit_copen (s : State) (b : Byte) : (s.emit b).copen = s.copen := rfl
@[simp] theorem State.emit_ctag (s : State) (b : Byte) : (s.emit b).ctag = s.ctag := rfl
@[simp] theorem State.emit_clen (s : State) (b : Byte) : (s.emit b).clen = s.clen := rfl
@[simp] theorem State.emit_cbuf (s : State) (b : Byte) : (s.emit b).cbuf = s.cbuf := rfl
@[simp] theorem State.emit_olen (s : State) (b : Byte) : (s.emit b).olen = s.olen + 1 := rfl
@[simp] theorem State.emit_obuf (s : State) (b : Byte) : (s.emit b).obuf = Memory.write s.obuf s.olen b := rfl
@[simp] theorem State.emit_fault (s : State) (b : Byte) : (s.emit b).fault = s.fault := rfl
@[simp] theorem State.emit_errcode (s : State) (b : Byte) : (s.emit b).errcode = s.errcode := rfl
@[simp] theorem State.emit_errcmd (s : State) (b : Byte) : (s.emit b).errcmd = s.errcmd := rfl
@[simp] theorem State.emit_bus (s : State) (b : Byte) : (s.emit b).bus = s.bus := rfl
@[simp] theorem State.emit_resp (s : State) (b : Byte) : (s.emit b).resp = s.resp := rfl
@[simp] theorem State.emit_drawn (s : State) (b : Byte) : (s.emit b).drawn = s.drawn := rfl

/-! `State.cbufAppend` -/
@[simp] theorem State.cbufAppend_crc (s : State) (x : Byte) : (s.cbufAppend x).crc = s.crc := rfl
@[simp] theorem State.cbufAppend_fopen (s : State) (x : Byte) : (s.cbufAppend x).fopen = s.fopen := rfl
@[simp] theorem State.cbufAppend_ftag (s : State) (x : Byte) : (s.cbufAppend x).ftag = s.ftag := rfl
@[simp] theorem State.cbufAppend_flen (s : State) (x : Byte) : (s.cbufAppend x).flen = s.flen := rfl
@[simp] theorem State.cbufAppend_vbuf (s : State) (x : Byte) : (s.cbufAppend x).vbuf = s.vbuf := rfl
@[simp] theorem State.cbufAppend_copen (s : State) (x : Byte) : (s.cbufAppend x).copen = s.copen := rfl
@[simp] theorem State.cbufAppend_ctag (s : State) (x : Byte) : (s.cbufAppend x).ctag = s.ctag := rfl
@[simp] theorem State.cbufAppend_clen (s : State) (x : Byte) : (s.cbufAppend x).clen = s.clen + 1 := rfl
@[simp] theorem State.cbufAppend_cbuf (s : State) (x : Byte) : (s.cbufAppend x).cbuf = Memory.write s.cbuf s.clen x := rfl
@[simp] theorem State.cbufAppend_olen (s : State) (x : Byte) : (s.cbufAppend x).olen = s.olen := rfl
@[simp] theorem State.cbufAppend_obuf (s : State) (x : Byte) : (s.cbufAppend x).obuf = s.obuf := rfl
@[simp] theorem State.cbufAppend_fault (s : State) (x : Byte) : (s.cbufAppend x).fault = s.fault := rfl
@[simp] theorem State.cbufAppend_errcode (s : State) (x : Byte) : (s.cbufAppend x).errcode = s.errcode := rfl
@[simp] theorem State.cbufAppend_errcmd (s : State) (x : Byte) : (s.cbufAppend x).errcmd = s.errcmd := rfl
@[simp] theorem State.cbufAppend_bus (s : State) (x : Byte) : (s.cbufAppend x).bus = s.bus := rfl
@[simp] theorem State.cbufAppend_resp (s : State) (x : Byte) : (s.cbufAppend x).resp = s.resp := rfl
@[simp] theorem State.cbufAppend_drawn (s : State) (x : Byte) : (s.cbufAppend x).drawn = s.drawn := rfl

/-! `State.vbufAppend` -/
@[simp] theorem State.vbufAppend_crc (s : State) (b : Byte) : (s.vbufAppend b).crc = s.crc := rfl
@[simp] theorem State.vbufAppend_fopen (s : State) (b : Byte) : (s.vbufAppend b).fopen = s.fopen := rfl
@[simp] theorem State.vbufAppend_ftag (s : State) (b : Byte) : (s.vbufAppend b).ftag = s.ftag := rfl
@[simp] theorem State.vbufAppend_flen (s : State) (b : Byte) : (s.vbufAppend b).flen = s.flen + 1 := rfl
@[simp] theorem State.vbufAppend_vbuf (s : State) (b : Byte) : (s.vbufAppend b).vbuf = Memory.write s.vbuf s.flen b := rfl
@[simp] theorem State.vbufAppend_copen (s : State) (b : Byte) : (s.vbufAppend b).copen = s.copen := rfl
@[simp] theorem State.vbufAppend_ctag (s : State) (b : Byte) : (s.vbufAppend b).ctag = s.ctag := rfl
@[simp] theorem State.vbufAppend_clen (s : State) (b : Byte) : (s.vbufAppend b).clen = s.clen := rfl
@[simp] theorem State.vbufAppend_cbuf (s : State) (b : Byte) : (s.vbufAppend b).cbuf = s.cbuf := rfl
@[simp] theorem State.vbufAppend_olen (s : State) (b : Byte) : (s.vbufAppend b).olen = s.olen := rfl
@[simp] theorem State.vbufAppend_obuf (s : State) (b : Byte) : (s.vbufAppend b).obuf = s.obuf := rfl
@[simp] theorem State.vbufAppend_fault (s : State) (b : Byte) : (s.vbufAppend b).fault = s.fault := rfl
@[simp] theorem State.vbufAppend_errcode (s : State) (b : Byte) : (s.vbufAppend b).errcode = s.errcode := rfl
@[simp] theorem State.vbufAppend_errcmd (s : State) (b : Byte) : (s.vbufAppend b).errcmd = s.errcmd := rfl
@[simp] theorem State.vbufAppend_bus (s : State) (b : Byte) : (s.vbufAppend b).bus = s.bus := rfl
@[simp] theorem State.vbufAppend_resp (s : State) (b : Byte) : (s.vbufAppend b).resp = s.resp := rfl
@[simp] theorem State.vbufAppend_drawn (s : State) (b : Byte) : (s.vbufAppend b).drawn = s.drawn := rfl

/-! `State.openField` -/
@[simp] theorem State.openField_crc (s : State) (t : Tag) : (s.openField t).crc = s.crc := rfl
@[simp] theorem State.openField_fopen (s : State) (t : Tag) : (s.openField t).fopen = true := rfl
@[simp] theorem State.openField_ftag (s : State) (t : Tag) : (s.openField t).ftag = t := rfl
@[simp] theorem State.openField_flen (s : State) (t : Tag) : (s.openField t).flen = 0 := rfl
@[simp] theorem State.openField_vbuf (s : State) (t : Tag) : (s.openField t).vbuf = s.vbuf := rfl
@[simp] theorem State.openField_copen (s : State) (t : Tag) : (s.openField t).copen = s.copen := rfl
@[simp] theorem State.openField_ctag (s : State) (t : Tag) : (s.openField t).ctag = s.ctag := rfl
@[simp] theorem State.openField_clen (s : State) (t : Tag) : (s.openField t).clen = s.clen := rfl
@[simp] theorem State.openField_cbuf (s : State) (t : Tag) : (s.openField t).cbuf = s.cbuf := rfl
@[simp] theorem State.openField_olen (s : State) (t : Tag) : (s.openField t).olen = s.olen := rfl
@[simp] theorem State.openField_obuf (s : State) (t : Tag) : (s.openField t).obuf = s.obuf := rfl
@[simp] theorem State.openField_fault (s : State) (t : Tag) : (s.openField t).fault = s.fault := rfl
@[simp] theorem State.openField_errcode (s : State) (t : Tag) : (s.openField t).errcode = s.errcode := rfl
@[simp] theorem State.openField_errcmd (s : State) (t : Tag) : (s.openField t).errcmd = s.errcmd := rfl
@[simp] theorem State.openField_bus (s : State) (t : Tag) : (s.openField t).bus = s.bus := rfl
@[simp] theorem State.openField_resp (s : State) (t : Tag) : (s.openField t).resp = s.resp := rfl
@[simp] theorem State.openField_drawn (s : State) (t : Tag) : (s.openField t).drawn = s.drawn := rfl

/-! `State.closeField` -/
@[simp] theorem State.closeField_crc (s : State) : (s.closeField).crc = s.crc := rfl
@[simp] theorem State.closeField_fopen (s : State) : (s.closeField).fopen = false := rfl
@[simp] theorem State.closeField_ftag (s : State) : (s.closeField).ftag = s.ftag := rfl
@[simp] theorem State.closeField_flen (s : State) : (s.closeField).flen = 0 := rfl
@[simp] theorem State.closeField_vbuf (s : State) : (s.closeField).vbuf = s.vbuf := rfl
@[simp] theorem State.closeField_copen (s : State) : (s.closeField).copen = s.copen := rfl
@[simp] theorem State.closeField_ctag (s : State) : (s.closeField).ctag = s.ctag := rfl
@[simp] theorem State.closeField_clen (s : State) : (s.closeField).clen = s.clen := rfl
@[simp] theorem State.closeField_cbuf (s : State) : (s.closeField).cbuf = s.cbuf := rfl
@[simp] theorem State.closeField_olen (s : State) : (s.closeField).olen = s.olen := rfl
@[simp] theorem State.closeField_obuf (s : State) : (s.closeField).obuf = s.obuf := rfl
@[simp] theorem State.closeField_fault (s : State) : (s.closeField).fault = s.fault := rfl
@[simp] theorem State.closeField_errcode (s : State) : (s.closeField).errcode = s.errcode := rfl
@[simp] theorem State.closeField_errcmd (s : State) : (s.closeField).errcmd = s.errcmd := rfl
@[simp] theorem State.closeField_bus (s : State) : (s.closeField).bus = s.bus := rfl
@[simp] theorem State.closeField_resp (s : State) : (s.closeField).resp = s.resp := rfl
@[simp] theorem State.closeField_drawn (s : State) : (s.closeField).drawn = s.drawn := rfl

/-! `State.openComposite` -/
@[simp] theorem State.openComposite_crc (s : State) (t : Tag) : (s.openComposite t).crc = s.crc := rfl
@[simp] theorem State.openComposite_fopen (s : State) (t : Tag) : (s.openComposite t).fopen = s.fopen := rfl
@[simp] theorem State.openComposite_ftag (s : State) (t : Tag) : (s.openComposite t).ftag = s.ftag := rfl
@[simp] theorem State.openComposite_flen (s : State) (t : Tag) : (s.openComposite t).flen = s.flen := rfl
@[simp] theorem State.openComposite_vbuf (s : State) (t : Tag) : (s.openComposite t).vbuf = s.vbuf := rfl
@[simp] theorem State.openComposite_copen (s : State) (t : Tag) : (s.openComposite t).copen = true := rfl
@[simp] theorem State.openComposite_ctag (s : State) (t : Tag) : (s.openComposite t).ctag = t := rfl
@[simp] theorem State.openComposite_clen (s : State) (t : Tag) : (s.openComposite t).clen = 0 := rfl
@[simp] theorem State.openComposite_cbuf (s : State) (t : Tag) : (s.openComposite t).cbuf = s.cbuf := rfl
@[simp] theorem State.openComposite_olen (s : State) (t : Tag) : (s.openComposite t).olen = s.olen := rfl
@[simp] theorem State.openComposite_obuf (s : State) (t : Tag) : (s.openComposite t).obuf = s.obuf := rfl
@[simp] theorem State.openComposite_fault (s : State) (t : Tag) : (s.openComposite t).fault = s.fault := rfl
@[simp] theorem State.openComposite_errcode (s : State) (t : Tag) : (s.openComposite t).errcode = s.errcode := rfl
@[simp] theorem State.openComposite_errcmd (s : State) (t : Tag) : (s.openComposite t).errcmd = s.errcmd := rfl
@[simp] theorem State.openComposite_bus (s : State) (t : Tag) : (s.openComposite t).bus = s.bus := rfl
@[simp] theorem State.openComposite_resp (s : State) (t : Tag) : (s.openComposite t).resp = s.resp := rfl
@[simp] theorem State.openComposite_drawn (s : State) (t : Tag) : (s.openComposite t).drawn = s.drawn := rfl

/-! `State.closeComposite` -/
@[simp] theorem State.closeComposite_crc (s : State) : (s.closeComposite).crc = s.crc := rfl
@[simp] theorem State.closeComposite_fopen (s : State) : (s.closeComposite).fopen = s.fopen := rfl
@[simp] theorem State.closeComposite_ftag (s : State) : (s.closeComposite).ftag = s.ftag := rfl
@[simp] theorem State.closeComposite_flen (s : State) : (s.closeComposite).flen = s.flen := rfl
@[simp] theorem State.closeComposite_vbuf (s : State) : (s.closeComposite).vbuf = s.vbuf := rfl
@[simp] theorem State.closeComposite_copen (s : State) : (s.closeComposite).copen = false := rfl
@[simp] theorem State.closeComposite_ctag (s : State) : (s.closeComposite).ctag = s.ctag := rfl
@[simp] theorem State.closeComposite_clen (s : State) : (s.closeComposite).clen = 0 := rfl
@[simp] theorem State.closeComposite_cbuf (s : State) : (s.closeComposite).cbuf = s.cbuf := rfl
@[simp] theorem State.closeComposite_olen (s : State) : (s.closeComposite).olen = s.olen := rfl
@[simp] theorem State.closeComposite_obuf (s : State) : (s.closeComposite).obuf = s.obuf := rfl
@[simp] theorem State.closeComposite_fault (s : State) : (s.closeComposite).fault = s.fault := rfl
@[simp] theorem State.closeComposite_errcode (s : State) : (s.closeComposite).errcode = s.errcode := rfl
@[simp] theorem State.closeComposite_errcmd (s : State) : (s.closeComposite).errcmd = s.errcmd := rfl
@[simp] theorem State.closeComposite_bus (s : State) : (s.closeComposite).bus = s.bus := rfl
@[simp] theorem State.closeComposite_resp (s : State) : (s.closeComposite).resp = s.resp := rfl
@[simp] theorem State.closeComposite_drawn (s : State) : (s.closeComposite).drawn = s.drawn := rfl

/-! `State.answer` -/
@[simp] theorem State.answer_crc (s : State) (r : Response) : (s.answer r).crc = s.crc := rfl
@[simp] theorem State.answer_fopen (s : State) (r : Response) : (s.answer r).fopen = s.fopen := rfl
@[simp] theorem State.answer_ftag (s : State) (r : Response) : (s.answer r).ftag = s.ftag := rfl
@[simp] theorem State.answer_flen (s : State) (r : Response) : (s.answer r).flen = s.flen := rfl
@[simp] theorem State.answer_vbuf (s : State) (r : Response) : (s.answer r).vbuf = s.vbuf := rfl
@[simp] theorem State.answer_copen (s : State) (r : Response) : (s.answer r).copen = s.copen := rfl
@[simp] theorem State.answer_ctag (s : State) (r : Response) : (s.answer r).ctag = s.ctag := rfl
@[simp] theorem State.answer_clen (s : State) (r : Response) : (s.answer r).clen = s.clen := rfl
@[simp] theorem State.answer_cbuf (s : State) (r : Response) : (s.answer r).cbuf = s.cbuf := rfl
@[simp] theorem State.answer_olen (s : State) (r : Response) : (s.answer r).olen = s.olen := rfl
@[simp] theorem State.answer_obuf (s : State) (r : Response) : (s.answer r).obuf = s.obuf := rfl
@[simp] theorem State.answer_fault (s : State) (r : Response) : (s.answer r).fault = s.fault := rfl
@[simp] theorem State.answer_errcode (s : State) (r : Response) : (s.answer r).errcode = s.errcode := rfl
@[simp] theorem State.answer_errcmd (s : State) (r : Response) : (s.answer r).errcmd = s.errcmd := rfl
@[simp] theorem State.answer_bus (s : State) (r : Response) : (s.answer r).bus = s.bus := rfl
@[simp] theorem State.answer_resp (s : State) (r : Response) : (s.answer r).resp = r := rfl
@[simp] theorem State.answer_drawn (s : State) (r : Response) : (s.answer r).drawn = s.drawn := rfl

/-! The counted bytes of the three buffers, under the updates that leave them alone. -/
@[simp] theorem State.raise_fieldValue (s : State) (c : FaultCode) (w : Word) : (s.raise c w).fieldValue = s.fieldValue := rfl
@[simp] theorem State.raise_compositeValue (s : State) (c : FaultCode) (w : Word) : (s.raise c w).compositeValue = s.compositeValue := rfl
@[simp] theorem State.raise_output (s : State) (c : FaultCode) (w : Word) : (s.raise c w).output = s.output := rfl
@[simp] theorem State.resetBlock_fieldValue (s : State) : (s.resetBlock).fieldValue = [] := rfl
@[simp] theorem State.resetBlock_compositeValue (s : State) : (s.resetBlock).compositeValue = [] := rfl
@[simp] theorem State.resetBlock_output (s : State) : (s.resetBlock).output = [] := rfl
@[simp] theorem State.setCrc_fieldValue (s : State) (c : Crc) : (s.setCrc c).fieldValue = s.fieldValue := rfl
@[simp] theorem State.setCrc_compositeValue (s : State) (c : Crc) : (s.setCrc c).compositeValue = s.compositeValue := rfl
@[simp] theorem State.setCrc_output (s : State) (c : Crc) : (s.setCrc c).output = s.output := rfl
@[simp] theorem State.emitRaw_fieldValue (s : State) (b : Byte) : (s.emitRaw b).fieldValue = s.fieldValue := rfl
@[simp] theorem State.emitRaw_compositeValue (s : State) (b : Byte) : (s.emitRaw b).compositeValue = s.compositeValue := rfl
@[simp] theorem State.emit_fieldValue (s : State) (b : Byte) : (s.emit b).fieldValue = s.fieldValue := rfl
@[simp] theorem State.emit_compositeValue (s : State) (b : Byte) : (s.emit b).compositeValue = s.compositeValue := rfl
@[simp] theorem State.cbufAppend_fieldValue (s : State) (x : Byte) : (s.cbufAppend x).fieldValue = s.fieldValue := rfl
@[simp] theorem State.cbufAppend_output (s : State) (x : Byte) : (s.cbufAppend x).output = s.output := rfl
@[simp] theorem State.vbufAppend_compositeValue (s : State) (b : Byte) : (s.vbufAppend b).compositeValue = s.compositeValue := rfl
@[simp] theorem State.vbufAppend_output (s : State) (b : Byte) : (s.vbufAppend b).output = s.output := rfl
@[simp] theorem State.openField_compositeValue (s : State) (t : Tag) : (s.openField t).compositeValue = s.compositeValue := rfl
@[simp] theorem State.openField_output (s : State) (t : Tag) : (s.openField t).output = s.output := rfl
@[simp] theorem State.closeField_compositeValue (s : State) : (s.closeField).compositeValue = s.compositeValue := rfl
@[simp] theorem State.closeField_output (s : State) : (s.closeField).output = s.output := rfl
@[simp] theorem State.openComposite_fieldValue (s : State) (t : Tag) : (s.openComposite t).fieldValue = s.fieldValue := rfl
@[simp] theorem State.openComposite_output (s : State) (t : Tag) : (s.openComposite t).output = s.output := rfl
@[simp] theorem State.closeComposite_fieldValue (s : State) : (s.closeComposite).fieldValue = s.fieldValue := rfl
@[simp] theorem State.closeComposite_output (s : State) : (s.closeComposite).output = s.output := rfl
@[simp] theorem State.answer_fieldValue (s : State) (r : Response) : (s.answer r).fieldValue = s.fieldValue := rfl
@[simp] theorem State.answer_compositeValue (s : State) (r : Response) : (s.answer r).compositeValue = s.compositeValue := rfl
@[simp] theorem State.answer_output (s : State) (r : Response) : (s.answer r).output = s.output := rfl

/-! The fault-state gate. -/
@[simp] theorem State.unlessFaulted_of_fault {s : State} (t : State) (h : s.fault = true) : s.unlessFaulted t = s :=
  if_pos h

@[simp] theorem State.unlessFaulted_of_no_fault {s : State} (t : State) (h : s.fault = false) : s.unlessFaulted t = t :=
  if_neg (by simp [h])

end Sys2Proof.Machine
end

