-- ==== Sys2Proof/Laws/Ops.lean ====
section
/-! SUPPORT. What each shared operation can do, said once: appending a string to one of the three buffers, the gate of the
fault state, the renderings' lengths, and the laws of feeding the CRC. -/

namespace Sys2Proof.Machine

/-! ## Strings and renderings -/

@[simp] theorem length_dec2 (n : Nat) : (dec2 n).length = 2 := by
  unfold dec2; split <;> rfl

theorem dec2_of_le {n : Nat} (h : n ≤ 99) :
    dec2 n = [BitVec.ofNat 8 (0x30 + n / 10), BitVec.ofNat 8 (0x30 + n % 10)] := if_pos h

@[simp] theorem length_enc (t : Tag) (v : List Byte) : (enc t v).length = v.length + 4 := by
  simp [enc]; omega

@[simp] theorem length_hex (c : Crc) : (hex c).length = 4 := rfl

@[simp] theorem crcFeed_nil (c : Crc) : crcFeed c [] = c := rfl

@[simp] theorem crcFeed_cons (c : Crc) (b : Byte) (e : List Byte) : crcFeed c (b :: e) = crcFeed (crcStep c b) e := rfl

theorem crcFeed_append (c : Crc) (e f : List Byte) : crcFeed c (e ++ f) = crcFeed (crcFeed c e) f :=
  List.foldl_append

/-! ## Writing a string into a buffer -/

/-- The bytes of a string written from index `n` on. -/
def Memory.writeAll : Memory → Nat → List Byte → Memory
  | m, _, [] => m
  | m, n, b :: e => Memory.writeAll (Memory.write m n b) (n + 1) e

theorem Memory.wf_writeAll : ∀ {m : Memory} (n : Nat) (e : List Byte), Memory.wf m = true →
    Memory.wf (Memory.writeAll m n e) = true
  | _, _, [], h => h
  | _, n, b :: e, h => Memory.wf_writeAll (n + 1) e (Memory.wf_write n b h)

theorem Memory.below_writeAll {cap : Nat} : ∀ {m : Memory} (n : Nat) (e : List Byte), n + e.length ≤ cap →
    Memory.below cap m = true → Memory.below cap (Memory.writeAll m n e) = true
  | _, _, [], _, h => h
  | _, n, b :: e, hn, h => by
    simp only [List.length_cons] at hn
    exact Memory.below_writeAll (n + 1) e (by omega) (Memory.below_write b (by omega) h)

/-- The counted bytes after a string is written at the count: the string appended. -/
theorem Memory.firstBytes_writeAll : ∀ {m : Memory} (n : Nat) (e : List Byte), Memory.wf m = true →
    Memory.firstBytes (Memory.writeAll m n e) (n + e.length) = Memory.firstBytes m n ++ e
  | _, _, [], _ => by simp [Memory.writeAll]
  | m, n, b :: e, h => by
    have := Memory.firstBytes_writeAll (n + 1) e (Memory.wf_write n b h)
    rw [Memory.firstBytes_write n b h] at this
    simpa [Memory.writeAll, Nat.add_assoc, Nat.add_comm 1] using this

/-- Reading after a string is written: the string's byte inside its range, what was there before outside it. -/
theorem Memory.read_writeAll : ∀ {m : Memory} (n : Nat) (e : List Byte) (a : Nat), Memory.wf m = true →
    Memory.read (Memory.writeAll m n e) a
      = if n ≤ a ∧ a < n + e.length then e.getD (a - n) 0 else Memory.read m a
  | _, n, [], a, _ => by
    rw [if_neg (by simp only [List.length_nil]; omega)]; rfl
  | m, n, b :: e, a, h => by
    rw [Memory.writeAll, Memory.read_writeAll (n + 1) e a (Memory.wf_write n b h), Memory.read_write n b a h,
      List.length_cons]
    by_cases h1 : a = n
    · subst h1
      rw [if_neg (by omega), if_pos rfl, if_pos (by omega)]
      simp
    · by_cases h2 : n + 1 ≤ a ∧ a < n + 1 + e.length
      · rw [if_pos h2, if_pos (by omega), show a - n = (a - (n + 1)) + 1 by omega]
        simp
      · rw [if_neg h2, if_neg h1, if_neg (by omega)]

/-! ## Appending a string: the whole effect -/

/-- `Emit` of a string in order: appended to the output, fed to the CRC, nothing else. -/
theorem State.emitAll_eq (s : State) (e : List Byte) :
    s.emitAll e = { s with
      obuf := Memory.writeAll s.obuf s.olen e
      olen := s.olen + e.length
      crc := crcFeed s.crc e } := by
  induction e generalizing s with
  | nil => rfl
  | cons b e ih =>
    change (s.emit b).emitAll e = _
    rw [ih (s.emit b)]
    simp [State.emit, State.emitRaw, State.setCrc, Memory.writeAll, Nat.add_assoc, Nat.add_comm 1]

/-- `EmitRaw` of a string in order: appended to the output, nothing else. -/
theorem State.emitRawAll_eq (s : State) (e : List Byte) :
    s.emitRawAll e = { s with obuf := Memory.writeAll s.obuf s.olen e, olen := s.olen + e.length } := by
  induction e generalizing s with
  | nil => rfl
  | cons b e ih =>
    change (s.emitRaw b).emitRawAll e = _
    rw [ih (s.emitRaw b)]
    simp [State.emitRaw, Memory.writeAll, Nat.add_assoc, Nat.add_comm 1]

/-- `CBufAppend` of a string in order: appended to the composite buffer, nothing else. -/
theorem State.cbufAppendAll_eq (s : State) (e : List Byte) :
    s.cbufAppendAll e = { s with cbuf := Memory.writeAll s.cbuf s.clen e, clen := s.clen + e.length } := by
  induction e generalizing s with
  | nil => rfl
  | cons b e ih =>
    change (s.cbufAppend b).cbufAppendAll e = _
    rw [ih (s.cbufAppend b)]
    simp [State.cbufAppend, Memory.writeAll, Nat.add_assoc, Nat.add_comm 1]

/-- The output after `Emit` of a string. -/
theorem State.output_emitAll (s : State) (e : List Byte) (h : Memory.wf s.obuf = true) :
    (s.emitAll e).output = s.output ++ e := by
  rw [State.emitAll_eq]
  exact Memory.firstBytes_writeAll s.olen e h

/-- The output after `EmitRaw` of a string. -/
theorem State.output_emitRawAll (s : State) (e : List Byte) (h : Memory.wf s.obuf = true) :
    (s.emitRawAll e).output = s.output ++ e := by
  rw [State.emitRawAll_eq]
  exact Memory.firstBytes_writeAll s.olen e h

/-- The composite's value after `CBufAppend` of a string. -/
theorem State.compositeValue_cbufAppendAll (s : State) (e : List Byte) (h : Memory.wf s.cbuf = true) :
    (s.cbufAppendAll e).compositeValue = s.compositeValue ++ e := by
  rw [State.cbufAppendAll_eq]
  exact Memory.firstBytes_writeAll s.clen e h

/-- The field's value after one character is appended. -/
theorem State.fieldValue_vbufAppend (s : State) (b : Byte) (h : Memory.wf s.vbuf = true) :
    (s.vbufAppend b).fieldValue = s.fieldValue ++ [b] := Memory.firstBytes_write s.flen b h

@[simp] theorem State.length_fieldValue (s : State) : s.fieldValue.length = s.flen := Memory.length_firstBytes _ _

@[simp] theorem State.length_compositeValue (s : State) : s.compositeValue.length = s.clen :=
  Memory.length_firstBytes _ _

@[simp] theorem State.length_output (s : State) : s.output.length = s.olen := Memory.length_firstBytes _ _

/-! ## The gate of the fault state -/

/-- Whatever the gate answers is the state itself, in the fault state, or else the state after the command. -/
theorem State.unlessFaulted_cases (s t : State) :
    (s.fault = true ∧ s.unlessFaulted t = s) ∨ (s.fault = false ∧ s.unlessFaulted t = t) := by
  cases h : s.fault
  · exact .inr ⟨rfl, State.unlessFaulted_of_no_fault t h⟩
  · exact .inl ⟨rfl, State.unlessFaulted_of_fault t h⟩

end Sys2Proof.Machine
end

