-- ==== Sys2Proof/Laws/Exec.lean ====
section
/-! SUPPORT. What executing a command and performing an event can answer, said once each. -/

namespace Sys2Proof.Machine

/-- The state after executing a command: each meaning, with its answer's wrapper taken off. -/
def afterExec (i : Instr) (s : State) : State :=
  match exec i s with
  | .next t => t
  | .fault _ => s
  | .refused _ => s

/-- A command always completes: no meaning stops (70_reset_and_hazards.md R238). -/
theorem exec_eq_next (i : Instr) (s : State) : exec i s = .next (afterExec i s) := by
  cases i <;> rfl

/-- Every word completes, an illegal one too. -/
theorem execute_eq_next (w : Word) (s : State) : ∃ t, execute w s = .next t := by
  unfold execute
  split
  · exact ⟨_, exec_eq_next _ _⟩
  · exact ⟨_, rfl⟩

/-- A read answers with data or a bus error and does nothing else. -/
theorem performAccess_read (off : Offset) (n : Nat) (s : State) :
    performAccess (.read off n) s = .next (s.answer (((readAccess s off n).map .data).getD .busError)) := by
  simp only [performAccess]
  cases readAccess s off n <;> rfl

/-- A write executes its word where it is a word written to CMD, and is a bus error everywhere else. -/
theorem performAccess_write (off : Offset) (n : Nat) (v : Word) (s : State) :
    (writeAccepted off n = true ∧ performAccess (.write off n v) s = execute v (s.answer .done)) ∨
    (writeAccepted off n = false ∧ performAccess (.write off n v) s = .next (s.answer .busError)) := by
  cases h : writeAccepted off n <;> simp [performAccess, h]

/-- The hardware reset input leaves the reset state, and where an access was lost, a free response. -/
theorem performReset_cases (p : Option Access) (s : State) :
    (p = none ∧ performReset p s = s.resetBlock) ∨
    (p ≠ none ∧ performReset p s = { s.resetBlock with resp := Config.lostResponse s.drawn, drawn := s.drawn + 1 }) := by
  cases p with
  | none => exact .inl ⟨rfl, rfl⟩
  | some a => exact .inr ⟨by simp, rfl⟩

/-- What a step can do: nothing when the port is quiet, or perform the oldest event. -/
theorem step_cases (s : State) :
    (s.bus = [] ∧ step s = .next s) ∨
    (∃ e rest, s.bus = e :: rest ∧ step s = performEvent e { s with bus := rest }) := by
  simp only [step, runPort]
  cases h : s.bus with
  | nil => exact .inl ⟨rfl, rfl⟩
  | cons e rest => exact .inr ⟨e, rest, rfl, rfl⟩

/-- A run of commands, one after another. -/
theorem execAll_cons (i : Instr) (is : List Instr) (s : State) :
    execAll (i :: is) s = execAll is (afterExec i s) := by
  simp [execAll, exec_eq_next]

theorem execAll_append (is js : List Instr) (s t : State) (h : execAll is s = .next t) :
    execAll (is ++ js) s = execAll js t := by
  induction is generalizing s with
  | nil => simp only [execAll, Host.Outcome.next.injEq] at h; rw [h]; rfl
  | cons i is ih =>
    rw [execAll_cons] at h
    rw [List.cons_append, execAll_cons, ih _ h]

end Sys2Proof.Machine
end

