-- ==== Sys2Proof/Laws/PerInstr.lean ====
section
/-! SUPPORT. Statements made per instruction: each instruction's word lies in its own row of the opcode map. -/

namespace Sys2Proof.Laws.RowMatch

/-- The row of an instruction selects its word (30_encoding.md R73). -/
def Statement (i : Instr) : Prop := rowSelects (rowOf i) (encode i) = true

theorem nop : Statement .nop := rfl
theorem clear : Statement .clear := rfl
theorem crcInit : Statement .crcInit := rfl
theorem crcByte (b : Byte) : Statement (.crcByte b) := by revert b; unfold Statement; decide
theorem crcEmit : Statement .crcEmit := rfl
theorem fldOpen (t : Tag) : Statement (.fldOpen t) := by
  simp only [Statement, rowSelects, rowOf, encode, wordT, wordN, beq_iff_eq]
  refine BitVec.eq_of_getLsbD_eq fun k hk => ?_
  interval_cases k <;> simp
theorem fldByte (b : Byte) : Statement (.fldByte b) := by revert b; unfold Statement; decide
theorem fldClose : Statement .fldClose := rfl
theorem cmpOpen (t : Tag) : Statement (.cmpOpen t) := by
  simp only [Statement, rowSelects, rowOf, encode, wordT, wordN, beq_iff_eq]
  refine BitVec.eq_of_getLsbD_eq fun k hk => ?_
  interval_cases k <;> simp
theorem cmpClose : Statement .cmpClose := rfl
theorem outByte (b : Byte) : Statement (.outByte b) := by revert b; unfold Statement; decide

end Sys2Proof.Laws.RowMatch
end

