-- ==== Sys2Proof/Tests/Slice0.lean ====
section
/-! SUPPORT. Tests of one step each, their expected values from 95_test_vectors.md or computed by hand from the rule
named; words written out from 30_encoding.md; ill-formed operands the checks refuse; and, for every obligation with
hypotheses, a concrete state and operands that meet them together (`test_witness_<obligation>`). -/

namespace Sys2Proof.Tests

open Sys2Proof.Machine

/-- STATUS, the output and the CRC register after a command. -/
def view : Result → Option (Word × List Byte × Crc)
  | .next s => some (statusWord s, s.output, s.crc)
  | .fault _ => none
  | .refused _ => none

/-- One thing of the state after a command. -/
def seen {α : Type} (f : State → α) : Result → Option α
  | .next s => some (f s)
  | .fault _ => none
  | .refused _ => none

/-- An answer is a next state. -/
def isNext (r : Result) : Bool := (seen id r).isSome

/-- Field "26" open with the value "b". -/
def fieldState : State := { State.reset with fopen := true, ftag := 0x3236, flen := 1, vbuf := [(0, 0x62)] }

/-- Field "59" open with 99 characters, all 0x00. -/
def fullFieldState : State := { State.reset with fopen := true, ftag := 0x3539, flen := 99 }

/-- Composite "26" open and empty. -/
def compositeState : State := { State.reset with copen := true, ctag := 0x3236 }

/-- F0 of 95_test_vectors.md: FLD.BYTE 'A' with no field open. -/
def faultState : State := { State.reset with fault := true, errcode := 3, errcmd := 0x60000041 }

/-- Field "00" open with the value "01", as before V26's FLD.CLOSE. -/
def value01State : State :=
  { State.reset with fopen := true, ftag := 0x3030, flen := 2, vbuf := [(0, 0x30), (1, 0x31)] }

/-- Two characters in the output, and a byte above them that nothing counts. -/
def windowState : State := { State.reset with olen := 2, obuf := [(0, 0x32), (1, 0x36), (2, 0x41)] }

/-- As before V32's FLD.CLOSE: 20 characters in the field, 24 places left in the output. -/
def fieldFillsState : State := { State.reset with fopen := true, ftag := 0x3539, flen := 20, olen := 1000 }

/-- As before V33's FLD.CLOSE: 95 characters in the sub-field of an empty composite. -/
def subfieldFillsState : State := { compositeState with fopen := true, ftag := 0x3030, flen := 95 }

/-- Three events of different kinds at the port, none of a second host. -/
def threeEventsState : State :=
  { State.reset with bus := [.access .host (.read 0x001 2), cmdWrite 0xF0000000, .reset none] }

/-- The output "6" with its checksum in the register (V47). -/
def outState : State := { State.reset with crc := 0xB765, olen := 1, obuf := [(0, 0x36)] }

/-- A value of 99 characters. -/
def value99 : List Byte := List.replicate 99 0x41

/-- Sub-fields whose encodings are 99 bytes. -/
def subs99 : List (Tag × List Byte) := [(0x3030, List.replicate 91 0x41), (0x3031, [])]

/-- Sub-fields whose encodings are 100 bytes; the first one fits. -/
def subs100 : List (Tag × List Byte) := [(0x3030, List.replicate 92 0x41), (0x3031, [])]

/-- A state that differs from reset only where no host can look: vbuf[5], cbuf[0] and obuf[7]. -/
def hiddenState : State := { State.reset with vbuf := [(5, 0x41)], cbuf := [(0, 0x42)], obuf := [(7, 0x43)] }

/-! ## Ill-formed operands -/

theorem test_byte_256_refused : byteNumber 255 = true ∧ byteNumber 256 = false := by decide

theorem test_literal_quote_refused : literalChar (Char.ofNat 0x22) = false ∧ literalChar 'A' = true := by decide

theorem test_literal_edges : literalChar (Char.ofNat 0x1F) = false ∧ literalChar (Char.ofNat 0x20) = true ∧
    literalChar (Char.ofNat 0x7E) = true ∧ literalChar (Char.ofNat 0x7F) = false := by decide

theorem test_string_with_tab_refused : stringLiteral ['a', '\t'] = false := by decide

theorem test_tag_of_three_refused : tagLiteral ['2', '6', '0'] = false ∧ tagLiteral ['2'] = false ∧
    tagLiteral ['2', '6'] = true := by decide

theorem test_tag_with_control_refused : tagLiteral ['2', '\n'] = false := by decide

theorem test_every_instruction_well_formed :
    Instr.wellFormed .nop = true ∧ Instr.wellFormed (.outByte 0xFF) = true ∧ Instr.wellFormed (.fldOpen 0xFFFF) = true := by
  decide

/-! ## Words written out from the opcode map -/

theorem test_decode_nop : decode 0x00000000 = .ok .nop := by decide

theorem test_decode_clear : decode 0x10000000 = .ok .clear := by decide

theorem test_decode_crcInit : decode 0x20000000 = .ok .crcInit := by decide

theorem test_decode_crcByte : decode 0x300000FF = .ok (.crcByte 0xFF) := by decide

theorem test_decode_crcEmit : decode 0x40000000 = .ok .crcEmit := by decide

theorem test_decode_fldOpen : decode 0x50003031 = .ok (.fldOpen 0x3031) := by decide

theorem test_decode_fldByte : decode 0x60000062 = .ok (.fldByte 0x62) := by decide

theorem test_decode_fldClose : decode 0x70000000 = .ok .fldClose := by decide

theorem test_decode_cmpOpen : decode 0x80003632 = .ok (.cmpOpen 0x3632) := by decide

theorem test_decode_cmpClose : decode 0x90000000 = .ok .cmpClose := by decide

theorem test_decode_outByte : decode 0xA0000036 = .ok (.outByte 0x36) := by decide

theorem test_decode_reserved : decode 0xF0000000 = .error .reservedOpcode ∧ decode 0x10000001 = .error .reservedBits ∧
    decode 0x50013236 = .error .reservedBits := by decide

theorem test_tag_characters : tagFirst 0x3236 = 0x32 ∧ tagSecond 0x3236 = 0x36 ∧ tagOf 0x32 0x36 = 0x3236 := by decide

theorem test_table_word : decodeTableWord 32 0x50003236 = some (.fldOpen 0x3236) ∧
    decodeTableWord 32 0xB0000000 = none := by decide

theorem test_fetch_word : seen id (step (State.reset.withFetchWord 32 0x50003236)) =
    some { State.reset with fopen := true, ftag := 0x3236, resp := .done } := by decide

/-! ## The pure functions -/

theorem test_crcStep_rows : crcStep 0xFFFF 0x00 = 0xE1F0 ∧ crcStep 0x0000 0x01 = 0x1021 ∧
    crcStep 0x1234 0x56 = 0x3C40 := by decide

theorem test_crcStep_row_29B1 : crcStep 0x29B1 0x00 = 0x044B ∧ crcStep 0x0001 0x00 = 0x0100 := by decide

theorem test_hex_rows : hex 0x00A5 = [0x30, 0x30, 0x41, 0x35] ∧ hex 0xABCD = [0x41, 0x42, 0x43, 0x44] := by decide

theorem test_enc_pads_length : enc 0x3533 [0x39, 0x38, 0x36] = [0x35, 0x33, 0x30, 0x33, 0x39, 0x38, 0x36] := by decide

theorem test_digit_edges : isDigit 0x2F = false ∧ isDigit 0x30 = true ∧ isDigit 0x39 = true ∧ isDigit 0x3A = false := by
  decide

theorem test_memory_write_zero_removes : Memory.write [(3, 0x41)] 3 0x00 = [] ∧
    Memory.write [(3, 0x41)] 1 0x42 = [(1, 0x42), (3, 0x41)] := by decide

/-! ## Commands -/

/-- V53's shape: nothing changes. -/
theorem test_nop : seen id (exec .nop fieldState) = some fieldState := by decide

/-- V57. -/
theorem test_clear : seen id (exec .clear fieldState) = some State.reset := by decide

/-- V61. -/
theorem test_clear_in_fault : view (exec .clear faultState) = some (0, [], 0xFFFF) := by decide

/-- V2. -/
theorem test_crcInit : seen State.crc (exec .crcInit { State.reset with crc := 0xB915 }) = some 0xFFFF := by decide

/-- V62. -/
theorem test_crcInit_in_fault :
    view (exec .crcInit { faultState with crc := 0x89B9 }) = some (0x34, [], 0x89B9) := by decide

/-- V3. -/
theorem test_crcByte : view (exec (.crcByte 0x41) State.reset) = some (0, [], 0xB915) := by decide

/-- V5: allowed with a field open. -/
theorem test_crcByte_field_open :
    view (exec (.crcByte 0x31) { State.reset with fopen := true, ftag := 0x3539 }) = some (1, [], 0xC782) := by decide

/-- V7: the register is not fed. -/
theorem test_crcEmit : view (exec .crcEmit { State.reset with crc := 0x29B1 }) =
    some (0, [0x32, 0x39, 0x42, 0x31], 0x29B1) := by decide

/-- V11. -/
theorem test_crcEmit_composite_open : view (exec .crcEmit compositeState) = some (0x36, [], 0xFFFF) := by decide

/-- V15. -/
theorem test_fldOpen : seen (fun s => (statusWord s, s.flen, s.ftag)) (exec (.fldOpen 0x3236) State.reset) =
    some (1, 0, 0x3236) := by decide

/-- V19: SequenceError before InvalidTag. -/
theorem test_fldOpen_priority : view (exec (.fldOpen 0x3041) { State.reset with fopen := true, ftag := 0x3030 }) =
    some (0x35, [], 0xFFFF) := by decide

/-- V21's shape: the second character. -/
theorem test_fldByte : seen State.fieldValue (exec (.fldByte 0x72) fieldState) = some [0x62, 0x72] := by decide

/-- V23: the 100th character. -/
theorem test_fldByte_100th : seen (fun s => (statusWord s, s.flen, s.errcmd)) (exec (.fldByte 0x41) fullFieldState) =
    some (0x15, 99, 0x60000041) := by decide

set_option maxRecDepth 4000 in
/-- V26. -/
theorem test_fldClose : view (exec .fldClose value01State) =
    some (0, [0x30, 0x30, 0x30, 0x32, 0x30, 0x31], 0x89B9) := by decide

/-- V34: the composite would hold 100. -/
theorem test_fldClose_composite_full :
    seen (fun s => (statusWord s, s.clen, s.flen)) (exec .fldClose
      { compositeState with fopen := true, ftag := 0x3030, flen := 96 }) = some (0x17, 0, 96) := by decide

/-- V35. -/
theorem test_cmpOpen : seen (fun s => (statusWord s, s.clen, s.ctag)) (exec (.cmpOpen 0x3236) State.reset) =
    some (2, 0, 0x3236) := by decide

/-- V36. -/
theorem test_cmpOpen_bad_tag : view (exec (.cmpOpen 0x5836) State.reset) = some (0x44, [], 0xFFFF) := by decide

set_option maxRecDepth 4000 in
/-- V39. -/
theorem test_cmpClose : view (exec .cmpClose compositeState) = some (0, [0x32, 0x36, 0x30, 0x30], 0x0182) := by decide

/-- V41: a sub-field is still open. -/
theorem test_cmpClose_field_open : view (exec .cmpClose { compositeState with fopen := true, ftag := 0x3030 }) =
    some (0x37, [], 0xFFFF) := by decide

/-- V47. -/
theorem test_outByte : view (exec (.outByte 0x36) State.reset) = some (0, [0x36], 0xB765) := by decide

/-- V52's shape: a full output. -/
theorem test_outByte_full : seen (fun s => (statusWord s, s.olen)) (exec (.outByte 0x41) { State.reset with olen := 1024 }) =
    some (0x54, 1024) := by decide

/-! ## The port -/

/-- V6. -/
theorem test_illegal_word : seen (fun s => (statusWord s, s.errcmd))
    (step { State.reset with bus := [cmdWrite 0x30000141] }) = some (0x24, 0x30000141) := by decide

/-- V60: a CLEAR word with bit 0 set is no CLEAR. -/
theorem test_near_clear_ignored : seen (fun s => (statusWord s, s.errcmd))
    (step { faultState with bus := [cmdWrite 0x10000001] }) = some (0x34, 0x60000041) := by decide

/-- M2. -/
theorem test_read_crc : seen State.resp (step { State.reset with bus := [.access .host (.read 0x008 4)] }) =
    some (.data 0x0000FFFF) := by decide

/-- M3 to M5. -/
theorem test_read_errors :
    seen State.resp (step { State.reset with bus := [.access .host (.read 0x000 4)] }) = some .busError ∧
    seen State.resp (step { State.reset with bus := [.access .host (.read 0x006 4)] }) = some .busError ∧
    seen State.resp (step { State.reset with bus := [.access .host (.read 0x004 1)] }) = some .busError := by decide

/-- M6, M13. -/
theorem test_write_errors :
    seen id (step { State.reset with bus := [.access .host (.write 0x004 4 0)] }) =
      some { State.reset with resp := .busError } ∧
    seen id (step { State.reset with bus := [.access .host (.write 0x1000 4 0x41)] }) =
      some { State.reset with resp := .busError } := by decide

/-- The second output character at 0x1004, and 0 above OLEN (M8, M10). -/
theorem test_read_window :
    seen State.resp (step { windowState with bus := [.access .host (.read 0x1004 4)] }) = some (.data 0x36) ∧
    seen State.resp (step { windowState with bus := [.access .host (.read 0x1008 4)] }) = some (.data 0) := by decide

theorem test_hardware_reset : seen id (step { faultState with bus := [.reset none] }) = some State.reset := by decide

theorem test_idle : seen id (step faultState) = some faultState := by decide

theorem test_second_host_refused :
    isNext (step { State.reset with bus := [.access .other (.read 0x004 4)] }) = false := by decide

theorem test_host_write_reaches_cmd :
    (State.reset.hostWrite Config.base 4 0x30000041).bus = [cmdWrite 0x30000041] := by
  have h : windowOffset Config.base = some 0 := by
    have hd : Config.base / Config.windowBytes = Config.baseIndex := Nat.mul_div_cancel_left _ (by decide)
    rw [windowOffset, if_pos hd]
    congr 1
    apply BitVec.eq_of_toNat_eq
    simp [Config.base, Config.windowBytes]
  simp [State.hostWrite, h, State.issue, State.reset, cmdWrite]

/-! ## Assembler text (30_encoding.md R77, R78) -/

theorem test_assemble_field : assembleLine "FIELD \"00\", \"01\"".toList =
    some [0x50003030, 0x60000030, 0x60000031, 0x70000000] := by decide

/-- The lines R77 writes out, and a comment after one. -/
theorem test_assemble_spec_lines : assembleLine "FLD.OPEN \"26\"".toList = some [0x50003236] ∧
    assembleLine "FLD.BYTE 'b' ; a comment".toList = some [0x60000062] ∧
    assembleLine "OUT.BYTE 0x22".toList = some [0xA0000022] := by decide

theorem test_assemble_checksum : assembleLine "CHECKSUM \"63\"".toList =
    some [0xA0000036, 0xA0000033, 0xA0000030, 0xA0000034, 0x40000000] := by decide

theorem test_assemble_byte_256_refused : assembleLine "CRC.BYTE 256".toList = none := by decide

/-- Log 12: COMPOSITE with no sub-field is written without a comma; a comment-only line makes no words. -/
theorem test_assemble_conventions : assembleLine "COMPOSITE \"26\"".toList = some [0x80003236, 0x90000000] ∧
    assembleLine "COMPOSITE \"26\",".toList = none ∧ assembleLine " ; note".toList = some [] := by decide

theorem test_assemble_refused : assembleLine "FLD.OPEN \"026\"".toList = none ∧
    assembleLine "MOV 1".toList = none := by decide

/-! ## Witnesses: hypotheses that hold together -/

/-- The invariant of a state whose composite buffer holds nothing counted, from the fields that are left. -/
theorem inv_of_empty_composite {s : State} (hc : s.clen = 0) (h1 : s.flen ≤ 99) (h2 : s.olen ≤ 1024)
    (h3 : s.fopen = false → s.flen = 0) (h4 : s.fault = false → s.errcode = 0 ∧ s.errcmd = 0)
    (h5 : s.fault = true → s.errcode ∈ ([1, 2, 3, 4, 5] : List (BitVec 4)))
    (h6 : s.fopen = true → isDigitTag s.ftag = true) (h7 : s.copen = true → isDigitTag s.ctag = true)
    (h8 : Memory.wf s.vbuf = true ∧ Memory.below 99 s.vbuf = true ∧ Memory.wf s.cbuf = true ∧
      Memory.below 99 s.cbuf = true ∧ Memory.wf s.obuf = true ∧ Memory.below 1024 s.obuf = true) : s.Inv :=
  ⟨h1, by rw [hc]; decide, h2, h3, fun _ => hc, h4, h5, h6, h7,
    ⟨[], by simp, by simp [State.compositeValue, hc, Memory.firstBytes]⟩,
    h8.1, h8.2.1, h8.2.2.1, h8.2.2.2.1, h8.2.2.2.2.1, h8.2.2.2.2.2⟩

theorem test_inv_reset : State.reset.Inv := by apply inv_of_empty_composite <;> decide

theorem test_inv_field : fieldState.Inv := by apply inv_of_empty_composite <;> decide

theorem test_inv_composite : compositeState.Inv := by apply inv_of_empty_composite <;> decide

theorem test_inv_fault : faultState.Inv := by apply inv_of_empty_composite <;> decide

theorem test_inv_hidden : hiddenState.Inv := by apply inv_of_empty_composite <;> decide

theorem test_witness_EncodeInvertsDecode : decode 0x80003236 = .ok (.cmpOpen 0x3236) := by decide

theorem test_witness_DecodeFollowsOpcodeMap :
    decode 0xA00000FF = .ok (.outByte 0xFF) ∧ (⟨0xA0000000, 0xFFFFFF00⟩ : OpcodeRow) ∈ opcodeRows := by decide

theorem test_witness_StepRunsDecodedCommand : decode 0x60000041 = .ok (.fldByte 0x41) := by decide

/-- The four cases of `Execute`: an ignored word and the CLEAR word in the fault state, an illegal word, a command. -/
theorem test_witness_CommandWriteFollowsExecute :
    faultState.fault = true ∧ (0x10000001 : Word) ≠ 0x10000000 ∧ State.reset.fault = false ∧
      decode 0x10000001 = .error .reservedBits ∧ decode 0x10000000 = .ok .clear := by decide

theorem test_witness_FaultStateIgnoresEveryWord :
    faultState.fault = true ∧ ∀ w ∈ ([0x10000001, 0xB0000000, 0x50003030] : List Word), w ≠ 0x10000000 := by
  simp [faultState]

theorem test_witness_FaultStateIgnoresCommands : faultState.fault = true ∧ Instr.crcInit ≠ .clear := by decide

/-- One word for each alternative: OP 0xB and 0xF, form N's bits 0 and 27, form B's bits 8 and 27, form T's bits 16 and
27. -/
theorem test_witness_IllegalWordFaults : State.reset.fault = false ∧
    0xB ≤ (opcodeField 0xB0000000).toNat ∧ 0xB ≤ (opcodeField 0xFFFFFFFF).toNat ∧
    ((opcodeField 0x00000001).toNat = 0x0 ∧ (0x00000001 : Word).extractLsb' 0 28 ≠ 0) ∧
    ((opcodeField 0x78000000).toNat = 0x7 ∧ (0x78000000 : Word).extractLsb' 0 28 ≠ 0) ∧
    ((opcodeField 0x30000141).toNat = 0x3 ∧ (0x30000141 : Word).extractLsb' 8 20 ≠ 0) ∧
    ((opcodeField 0xA8000000).toNat = 0xA ∧ (0xA8000000 : Word).extractLsb' 8 20 ≠ 0) ∧
    ((opcodeField 0x50010000).toNat = 0x5 ∧ (0x50010000 : Word).extractLsb' 16 12 ≠ 0) ∧
    ((opcodeField 0x88003236).toNat = 0x8 ∧ (0x88003236 : Word).extractLsb' 16 12 ≠ 0) := by decide

theorem test_witness_CrcInitExecutes : compositeState.fault = false := by decide

theorem test_witness_CrcByteExecutes : fieldState.fault = false := by decide

/-- At the boundary: four characters exactly fill the output. -/
theorem test_witness_CrcEmitExecutes : ({ State.reset with olen := 1020 } : State).fault = false ∧
    State.reset.fopen = false ∧ State.reset.copen = false ∧ 1020 + 4 ≤ Config.outCap ∧
    Memory.wf State.reset.obuf = true := by decide

theorem test_witness_HexUppercaseAndInjective : hex 0xB915 = hex 0xB915 ∧ hex 0xB915 = [0x42, 0x39, 0x31, 0x35] := by
  decide

theorem test_witness_LengthIsTwoDecimalDigits : dec2 0 = [0x30, 0x30] ∧ dec2 99 = [0x39, 0x39] := by decide

theorem test_witness_FldOpenExecutes :
    compositeState.fault = false ∧ compositeState.fopen = false ∧ isDigitTag 0x3939 = true := by decide

theorem test_witness_FldByteExecutes : ({ fullFieldState with flen := 98 } : State).fault = false ∧
    fullFieldState.fopen = true ∧ 98 ≠ 99 ∧ Memory.wf fullFieldState.vbuf = true := by decide

/-- At the boundary: 20 characters and their prefix exactly fill the output (V32). -/
theorem test_witness_FldCloseToOutput :
    fieldFillsState.fault = false ∧ fieldFillsState.fopen = true ∧ fieldFillsState.copen = false ∧
      fieldFillsState.olen + fieldFillsState.flen + 4 ≤ Config.outCap ∧ Memory.wf fieldFillsState.obuf = true := by
  decide

/-- At the boundary: the composite holds 99 afterwards (V33). -/
theorem test_witness_FldCloseToComposite :
    subfieldFillsState.fault = false ∧ subfieldFillsState.fopen = true ∧ subfieldFillsState.copen = true ∧
      subfieldFillsState.clen + subfieldFillsState.flen + 4 ≤ 99 ∧ Memory.wf subfieldFillsState.cbuf = true := by
  decide

theorem test_witness_CmpOpenExecutes :
    State.reset.fault = false ∧ State.reset.copen = false ∧ State.reset.fopen = false ∧ isDigitTag 0x3030 = true := by
  decide

theorem test_witness_CmpCloseExecutes : compositeState.fault = false ∧ compositeState.copen = true ∧
    compositeState.fopen = false ∧ compositeState.olen + compositeState.clen + 4 ≤ Config.outCap ∧
    Memory.wf compositeState.obuf = true := by decide

theorem test_witness_OutByteExecutes : ({ State.reset with olen := 1023 } : State).fault = false ∧
    State.reset.fopen = false ∧ State.reset.copen = false ∧ 1023 + 1 ≤ Config.outCap ∧
    Memory.wf State.reset.obuf = true := by decide

theorem test_witness_CommandsLeavePortAlone : isNext (exec .clear faultState) = true := by decide

/-- A command that changes three elements. -/
theorem test_witness_ElementsChangeOnlyByTheirCommands : Instr.fldOpen 0x3236 ≠ .clear ∧
    ∃ t, exec (.fldOpen 0x3236) compositeState = .next t ∧ t.fopen ≠ compositeState.fopen ∧
      t.ftag ≠ compositeState.ftag := ⟨by decide, _, rfl, by decide, by decide⟩

theorem test_witness_OutputOnlyGrows : State.reset.Inv ∧ Instr.outByte 0x36 ≠ .clear ∧
    ∃ t, exec (.outByte 0x36) State.reset = .next t := ⟨test_inv_reset, by decide, _, rfl⟩

/-- A command with two causes, one with one, one with none. -/
theorem test_witness_FaultCausesAndPriority : fieldState.fault = false ∧
    firstCause (.fldOpen 0x3041) fieldState = some .sequenceError ∧
    firstCause (.fldOpen 0x3041) State.reset = some .invalidTag ∧
    firstCause .fldClose fieldState = none := by decide

theorem test_witness_FaultsArePrecise : State.reset.fault = false ∧
    (∃ t, step { State.reset with bus := [cmdWrite 0x70000000] } = .next t ∧ t.fault = true) ∧
    ∃ t, step { State.reset with bus := [cmdWrite 0xB0000000] } = .next t ∧ t.fault = true :=
  ⟨rfl, ⟨_, rfl, rfl⟩, _, rfl, rfl⟩

/-- Both ways out: CLEAR, and the hardware reset. -/
theorem test_witness_FaultEndsOnlyByReset : faultState.fault = true ∧
    (∃ t, step { faultState with bus := [cmdWrite 0x10000000] } = .next t ∧ t.fault = false) ∧
    ∃ t, step { faultState with bus := [.reset none] } = .next t ∧ t.fault = false :=
  ⟨rfl, ⟨_, rfl, rfl⟩, _, rfl, rfl⟩

theorem test_witness_RegisterReadsShowState : fieldState.Inv ∧
    ((0x018, fieldState.ftag.toNat) : Offset × Nat) ∈ ([(0x008, fieldState.crc.toNat), (0x00C, fieldState.olen),
      (0x010, fieldState.flen), (0x014, fieldState.clen), (0x018, fieldState.ftag.toNat),
      (0x01C, fieldState.ctag.toNat), (0x020, fieldState.errcmd.toNat)] : List (Offset × Nat)) :=
  ⟨test_inv_field, by decide⟩

/-- The first and the last word of the window, below and at `olen`. -/
theorem test_witness_OutputWindowReads : 0 < Config.outCap ∧ 1023 < Config.outCap ∧ ¬ 1023 < State.reset.olen ∧
    1023 < ({ State.reset with olen := 1024 } : State).olen := by decide

/-- Each clause at its boundary: the reads of CMD, of 0x021, 0x024 and of 0x0FFC are errors, those of 0x004, 0x020, 0x1000
and 0x1FFC are not; the writes to 0x004 and of a byte to CMD are errors, a word to CMD is not. -/
theorem test_witness_BusErrorsChangeNothing :
    (∀ a ∈ ([0x000, 0x021, 0x024, 0xFFC, 0x1001] : List Offset), ¬ (4 = 4 ∧ a.toNat % 4 = 0 ∧
      ((0x004 ≤ a.toNat ∧ a.toNat ≤ 0x020) ∨ (0x1000 ≤ a.toNat ∧ a.toNat < 0x1000 + 4 * Config.outCap)))) ∧
    (∀ a ∈ ([0x004, 0x020, 0x1000, 0x1FFC] : List Offset), 4 = 4 ∧ a.toNat % 4 = 0 ∧
      ((0x004 ≤ a.toNat ∧ a.toNat ≤ 0x020) ∨ (0x1000 ≤ a.toNat ∧ a.toNat < 0x1000 + 4 * Config.outCap))) ∧
    ¬ (4 = 4 ∧ (0x004 : Offset).toNat = 0) ∧ ¬ (1 = 4 ∧ (0 : Offset).toNat = 0) ∧ (4 = 4 ∧ (0 : Offset).toNat = 0) := by
  simp [Config.outCap]

theorem test_witness_EveryRunCompletes : threeEventsState.OneHost := by
  intro e he a
  simp only [threeEventsState, List.mem_cons, List.not_mem_nil, or_false] at he
  rcases he with rfl | rfl | rfl <;> simp [cmdWrite]

/-- The first and the last address of the window, and the first one after it. -/
theorem test_witness_WindowAtBase : 0 < 0x2000 ∧ 0x1FFF < 0x2000 ∧ Config.base + 0x2000 ≤ Config.base + 0x2000 :=
  ⟨by decide, by decide, Nat.le_refl _⟩

theorem test_witness_ResetAsTheHostSeesIt : 0 < Config.outCap ∧ 1023 < Config.outCap ∧
    ((0x008, 0x0000FFFF) : Offset × Word) ∈ ([(0x004, 0), (0x008, 0x0000FFFF), (0x00C, 0), (0x010, 0), (0x014, 0),
      (0x018, 0), (0x01C, 0), (0x020, 0)] : List (Offset × Word)) := by decide

theorem test_witness_InvariantKeptByStep : ({ fieldState with bus := [cmdWrite 0x70000000] } : State).Inv ∧
    ∃ t, step { fieldState with bus := [cmdWrite 0x70000000] } = .next t :=
  ⟨by apply inv_of_empty_composite <;> decide, _, rfl⟩

theorem test_witness_CrcIsFoldOfFedBytes : ∀ i ∈ ([.crcByte 0x41, .fldOpen 0x3030, .fldClose, .outByte 0x36] : List Instr),
    i ≠ .clear ∧ i ≠ .crcInit := by decide

theorem test_witness_CrcCoversOutput : State.reset.Inv ∧ State.reset.crc = crc16 State.reset.output ∧
    ∀ i ∈ ([.fldOpen 0x3030, .fldByte 0x41, .fldClose, .outByte 0x36] : List Instr),
      i ≠ .crcInit ∧ i ≠ .crcEmit ∧ ∀ b, i ≠ .crcByte b :=
  ⟨test_inv_reset, by decide, by simp⟩

/-- The longest value, in the last place the output has for it. -/
theorem test_witness_FieldAppendsItsEncoding : ({ State.reset with olen := 921 } : State).Inv ∧
    State.reset.fault = false ∧ State.reset.copen = false ∧ State.reset.fopen = false ∧ isDigitTag 0x3236 = true ∧
    value99.length ≤ 99 ∧ 921 + value99.length + 4 ≤ Config.outCap :=
  ⟨by apply inv_of_empty_composite <;> decide, rfl, rfl, rfl, rfl, by simp [value99], by simp [value99, Config.outCap]⟩

theorem test_witness_LongFieldFaults : State.reset.fault = false ∧ State.reset.copen = false ∧
    State.reset.fopen = false ∧ isDigitTag 0x3539 = true ∧ 100 ≤ (List.replicate 100 (0x41 : Byte)).length := by decide

/-- Two sub-fields, the second empty; the composite holds 99 bytes. -/
theorem test_witness_CompositeAppendsItsEncoding :
    State.reset.Inv ∧ State.reset.fault = false ∧ State.reset.copen = false ∧ State.reset.fopen = false ∧
      isDigitTag 0x3236 = true ∧ (∀ p ∈ subs99, isDigitTag p.1 = true) ∧
      (subs99.flatMap fun p => enc p.1 p.2).length ≤ 99 ∧
      State.reset.olen + (subs99.flatMap fun p => enc p.1 p.2).length + 4 ≤ Config.outCap :=
  ⟨test_inv_reset, rfl, rfl, rfl, rfl, by decide, by simp [subs99, enc, dec2, Config.maxValue],
    by simp [subs99, enc, dec2, Config.maxValue, Config.outCap, State.reset]⟩

/-- The first sub-field fits, the second passes the bound. -/
theorem test_witness_LongCompositeFaults :
    State.reset.fault = false ∧ State.reset.copen = false ∧ State.reset.fopen = false ∧ isDigitTag 0x3236 = true ∧
      (∀ p ∈ subs100, isDigitTag p.1 = true ∧ p.2.length ≤ 99) ∧ 99 < (subs100.flatMap fun p => enc p.1 p.2).length :=
  ⟨rfl, rfl, rfl, rfl, by simp [subs100]; decide, by simp [subs100, enc, dec2, Config.maxValue]⟩

theorem test_witness_ChecksumFieldClosesPayload :
    outState.Inv ∧ outState.fault = false ∧ outState.copen = false ∧ outState.fopen = false ∧
      outState.crc = crc16 outState.output ∧ outState.olen + 8 ≤ Config.outCap :=
  ⟨by apply inv_of_empty_composite <;> decide, rfl, rfl, rfl, by decide, by decide⟩

/-- Two states whose hidden bytes really differ, and the host opens a field in both. -/
theorem test_witness_HiddenBytesNeverObserved :
    ({ State.reset with bus := [cmdWrite 0x50003236] } : State).Inv ∧
      ({ hiddenState with bus := [cmdWrite 0x50003236] } : State).Inv ∧ hiddenState ≠ State.reset ∧
      SameToHost { State.reset with bus := [cmdWrite 0x50003236] } { hiddenState with bus := [cmdWrite 0x50003236] } ∧
      (∃ s, step { State.reset with bus := [cmdWrite 0x50003236] } = .next s) ∧
      ∃ t, step { hiddenState with bus := [cmdWrite 0x50003236] } = .next t :=
  ⟨by apply inv_of_empty_composite <;> decide, by apply inv_of_empty_composite <;> decide, by decide,
    ⟨rfl, rfl, rfl, rfl⟩, ⟨_, rfl⟩, _, rfl⟩

/-- A sub-value of 100 characters behind a sub-field that fits. -/
theorem test_witness_CompositeWithLongValueFaults :
    State.reset.fault = false ∧ State.reset.copen = false ∧ State.reset.fopen = false ∧ isDigitTag 0x3236 = true ∧
      (∀ p ∈ subs99, isDigitTag p.1 = true) ∧ isDigitTag 0x3032 = true ∧
      (subs99.flatMap fun p => enc p.1 p.2).length ≤ 99 ∧ 100 ≤ (List.replicate 100 (0x41 : Byte)).length :=
  ⟨rfl, rfl, rfl, rfl, by decide, rfl, by simp [subs99, enc, dec2, Config.maxValue], by simp⟩

/-- Each way to write a byte, at its edges. -/
theorem test_written_bytes : WritesByte ['\'', '~', '\''] 0x7E ∧ WritesByte ['0', 'x', 'F', '0'] 0xF0 ∧
    WritesByte ['2', '5', '5'] 0xFF ∧ WritesByte ['0'] 0 :=
  ⟨.character '~' (by decide), .hexadecimal 0xF0, .decimal 255 (by decide), .decimal 0 (by decide)⟩

/-- A composite line with two sub-fields, and a comment behind it. -/
theorem test_witness_WrittenLinesAssemble :
    (∃ is, WritesLine "COMPOSITE \"26\", (\"00\",\"a\"), (\"01\",\"\")".toList is) ∧
      ∃ c, " ;note".toList.tail = ';' :: c :=
  ⟨⟨_, .composite '2' '6' [(('0', '0'), ['a']), (('0', '1'), [])] (by decide) (by decide)⟩, "note".toList, by decide⟩

/-- One line for each clause: 256, one and three characters, a control character, an operand after NOP, an unknown name, a
lower-case letter. -/
theorem test_witness_AssemblerRefusesIllFormedLines : 255 < 256 ∧
    ((∀ c ∈ ['2'], c.toNat ≠ 0x22) ∧ ['2'].length ≠ 2) ∧
    ((∀ c ∈ ['2', '6', '0'], c.toNat ≠ 0x22) ∧ ['2', '6', '0'].length ≠ 2) ∧
    ((∀ c ∈ ['2', '\t'], c.toNat ≠ 0x22) ∧ ∃ c ∈ ['2', '\t'], c.toNat < 0x20 ∨ 0x7E < c.toNat) ∧
    ('1' ≠ ' ' ∧ '1' ≠ '\t' ∧ '1' ≠ ';') ∧
    ("MOV".toList ≠ [] ∧ "MOV".toList.all mnemonicChar = true ∧ "MOV".toList ∉ mnemonics) ∧
    0x61 ≤ ('n').toNat ∧ ('n').toNat ≤ 0x7A :=
  ⟨by decide, by simp, by simp, by simp, by decide, by decide, by decide⟩

/-- Two lines joined, and a text the assembler accepts. -/
theorem test_witness_TextAssemblesLineByLine :
    (∀ l ∈ ["CLEAR".toList, "OUT \"6\"".toList], '\n' ∉ l) ∧
      assemble "CLEAR\nOUT \"6\"".toList = some [0x10000000, 0xA0000036] := by decide

end Sys2Proof.Tests
end

section
/-! What a command does, said once: ignored in the fault state, else its first cause is raised, else its rule is
performed (30_encoding.md R76; 60_exceptions.md R202 to R206). -/

namespace Sys2Proof.Machine

/-- The rule of a command none of whose causes holds: its effect with the checks taken off. -/
def accepted : Instr → State → State
  | .nop, s => s
  | .clear, s => s.resetBlock
  | .crcInit, s => s.setCrc Config.crcInit
  | .crcByte b, s => s.setCrc (crcStep s.crc b)
  | .crcEmit, s => s.emitRawAll (hex s.crc)
  | .fldOpen t, s => s.openField t
  | .fldByte b, s => s.vbufAppend b
  | .fldClose, s =>
    if s.copen then (s.cbufAppendAll (enc s.ftag s.fieldValue)).closeField
    else (s.emitAll (enc s.ftag s.fieldValue)).closeField
  | .cmpOpen t, s => s.openComposite t
  | .cmpClose, s => (s.emitAll (enc s.ctag s.compositeValue)).closeComposite
  | .outByte b, s => s.emit b

/-- A command outside the fault state: its first cause raised, or its rule performed. -/
def performed (i : Instr) (s : State) : State :=
  (firstCause i s).elim (accepted i s) fun c => s.raise c (encode i)

theorem performed_of_cause {i : Instr} {s : State} {c : FaultCode} (h : firstCause i s = some c) :
    performed i s = s.raise c (encode i) := by simp [performed, h]

theorem performed_of_no_cause {i : Instr} {s : State} (h : firstCause i s = none) : performed i s = accepted i s := by
  simp [performed, h]

/-- A list of causes read as the chain of checks it stands for. -/
@[simp] theorem elim_firstHolding_cons (c : FaultCode) (p : Bool) (more : List (FaultCode × Bool)) (t : State)
    (f : FaultCode → State) :
    (firstHolding ((c, p) :: more)).elim t f = if p then f c else (firstHolding more).elim t f := by
  cases p <;> rfl

@[simp] theorem elim_firstHolding_nil (t : State) (f : FaultCode → State) : (firstHolding []).elim t f = t := rfl

/-- The checks of a command's meaning are the conditions of its causes, in the order of 60_exceptions.md R206. -/
theorem exec_eq_performed {i : Instr} (s : State) (h : i ≠ .clear) :
    exec i s = .next (s.unlessFaulted (performed i s)) := by
  cases i with
  | clear => exact absurd rfl h
  | nop => simp [exec, execNop, performed, firstCause, causes, accepted, State.unlessFaulted]
  | crcInit => rfl
  | crcByte b => rfl
  | crcEmit => simp [exec, execCrcEmit, performed, firstCause, causes, accepted]
  | fldOpen t => simp [exec, execFldOpen, performed, firstCause, causes, accepted]
  | fldByte b =>
    by_cases hl : s.flen = 99 <;> cases ho : s.fopen <;>
      simp [exec, execFldByte, performed, firstCause, causes, accepted, ho, hl, Config.maxValue]
  | fldClose =>
    cases ho : s.fopen <;> cases hc : s.copen <;>
      simp [exec, execFldClose, performed, firstCause, causes, accepted, ho, hc, Config.maxValue]
  | cmpOpen t => simp [exec, execCmpOpen, performed, firstCause, causes, accepted]
  | cmpClose => simp [exec, execCmpClose, performed, firstCause, causes, accepted]
  | outByte b => simp [exec, execOutByte, performed, firstCause, causes, accepted]

/-- Everything executing a command can do. -/
theorem exec_cases {i : Instr} {s t : State} (h : exec i s = .next t) :
    (s.fault = true ∧ i ≠ .clear ∧ t = s) ∨
    (∃ c, s.fault = false ∧ firstCause i s = some c ∧ t = s.raise c (encode i)) ∨
    ((s.fault = false ∨ i = .clear) ∧ firstCause i s = none ∧ t = accepted i s) := by
  by_cases hi : i = .clear
  · subst hi
    cases h
    exact .inr (.inr ⟨.inr rfl, rfl, rfl⟩)
  · rw [exec_eq_performed s hi, Host.Outcome.next.injEq] at h
    subst h
    obtain ⟨hf, hg⟩ | ⟨hf, hg⟩ := State.unlessFaulted_cases s (performed i s)
    · exact .inl ⟨hf, hi, hg⟩
    · cases hc : firstCause i s with
      | some c => exact .inr (.inl ⟨c, hf, rfl, hg.trans (performed_of_cause hc)⟩)
      | none => exact .inr (.inr ⟨.inl hf, rfl, hg.trans (performed_of_no_cause hc)⟩)

/-! The conditions under which each command is accepted: no cause of 60_exceptions.md R202 holds. -/

theorem firstHolding_eq_none (cs : List (FaultCode × Bool)) : firstHolding cs = none ↔ ∀ p ∈ cs, p.2 = false := by
  induction cs with
  | nil => simp [firstHolding]
  | cons p more ih =>
    obtain ⟨c, holds⟩ := p
    cases holds <;> simp [firstHolding, ih]

theorem firstCause_crcEmit_eq_none (s : State) :
    firstCause .crcEmit s = none ↔ s.fopen = false ∧ s.copen = false ∧ s.olen + 4 ≤ Config.outCap := by
  simp [firstCause, causes, firstHolding_eq_none, and_assoc]

theorem firstCause_fldOpen_eq_none (x : Tag) (s : State) :
    firstCause (.fldOpen x) s = none ↔ s.fopen = false ∧ isDigitTag x = true := by
  simp [firstCause, causes, firstHolding_eq_none]

theorem firstCause_fldByte_eq_none (b : Byte) (s : State) :
    firstCause (.fldByte b) s = none ↔ s.fopen = true ∧ s.flen ≠ 99 := by
  cases ho : s.fopen <;> simp [firstCause, causes, firstHolding_eq_none, ho]

theorem firstCause_fldClose_eq_none (s : State) :
    firstCause .fldClose s = none ↔ s.fopen = true ∧
      (s.copen = true → s.clen + s.flen + 4 ≤ 99) ∧ (s.copen = false → s.olen + s.flen + 4 ≤ Config.outCap) := by
  cases ho : s.fopen <;> simp [firstCause, causes, firstHolding_eq_none, ho]

theorem firstCause_cmpOpen_eq_none (x : Tag) (s : State) :
    firstCause (.cmpOpen x) s = none ↔ s.copen = false ∧ s.fopen = false ∧ isDigitTag x = true := by
  simp [firstCause, causes, firstHolding_eq_none, and_assoc]

theorem firstCause_cmpClose_eq_none (s : State) :
    firstCause .cmpClose s = none ↔ s.copen = true ∧ s.fopen = false ∧ s.olen + s.clen + 4 ≤ Config.outCap := by
  simp [firstCause, causes, firstHolding_eq_none, and_assoc]

theorem firstCause_outByte_eq_none (b : Byte) (s : State) :
    firstCause (.outByte b) s = none ↔ s.fopen = false ∧ s.copen = false ∧ s.olen + 1 ≤ Config.outCap := by
  simp [firstCause, causes, firstHolding_eq_none, and_assoc]

/-! Words and steps, by case. -/

theorem execute_of_ok {w : Word} {i : Instr} (h : decode w = .ok i) (s : State) : execute w s = exec i s := by
  simp [execute, h]

theorem execute_of_error {w : Word} {e : DecodeError} (h : decode w = .error e) (s : State) :
    execute w s = .next (s.unlessFaulted (s.raise .illegalCommand w)) := by
  simp [execute, executeIllegal, h]

theorem step_of_quiet {s : State} (h : s.bus = []) : step s = .next s := by simp [step, runPort, h]

theorem step_of_event {s : State} {e : BusEvent} {rest : List BusEvent} (h : s.bus = e :: rest) :
    step s = performEvent e { s with bus := rest } := by simp [step, runPort, h]

end Sys2Proof.Machine
end

section
/-! The invariants of 10_state.md R47: every operation keeps them where its command's checks passed, hence every command,
every event and every step. -/

namespace Sys2Proof.Machine

/-! ## Concatenations of field encodings -/

theorem isFieldEncodings_nil : IsFieldEncodings [] := ⟨[], by simp, rfl⟩

theorem IsFieldEncodings.append_enc {bytes v : List Byte} {t : Tag} (h : IsFieldEncodings bytes)
    (ht : isDigitTag t = true) (hv : v.length ≤ Config.maxValue) : IsFieldEncodings (bytes ++ enc t v) := by
  obtain ⟨fields, hall, rfl⟩ := h
  refine ⟨fields ++ [(t, v)], ?_, by simp⟩
  simp only [List.mem_append, List.mem_singleton]
  rintro f (hf | rfl)
  · exact hall f hf
  · exact ⟨ht, hv⟩

/-! ## The operations -/

/-- The reset state of the block, whatever stands at its port. -/
theorem State.resetBlock_inv (s : State) : s.resetBlock.Inv where
  flen_le := Nat.zero_le _
  clen_le := Nat.zero_le _
  olen_le := Nat.zero_le _
  flen_zero _ := rfl
  clen_zero _ := rfl
  no_fault _ := ⟨rfl, rfl⟩
  fault_code h := absurd h (by simp)
  ftag_digits h := absurd h (by simp)
  ctag_digits h := absurd h (by simp)
  composite_fields := isFieldEncodings_nil
  vbuf_wf := rfl
  vbuf_below := rfl
  cbuf_wf := rfl
  cbuf_below := rfl
  obuf_wf := rfl
  obuf_below := rfl

/-- The fields of the model's own play no part in the invariants. -/
theorem State.Inv.withPort {s : State} (h : s.Inv) (bus : List BusEvent) (resp : Response) (drawn : Nat) :
    ({ s with bus := bus, resp := resp, drawn := drawn } : State).Inv := { h with }

theorem State.Inv.raise {s : State} (h : s.Inv) (c : FaultCode) (w : Word) : (s.raise c w).Inv :=
  { h with
    no_fault := fun hf => absurd hf (by simp)
    fault_code := fun _ => by cases c <;> simp [faultNumber] }

theorem State.Inv.setCrc {s : State} (h : s.Inv) (c : Crc) : (s.setCrc c).Inv := { h with }

theorem State.Inv.openField {s : State} (h : s.Inv) {t : Tag} (ht : isDigitTag t = true) : (s.openField t).Inv :=
  { h with flen_le := Nat.zero_le _, flen_zero := fun _ => rfl, ftag_digits := fun _ => ht }

theorem State.Inv.closeField {s : State} (h : s.Inv) : s.closeField.Inv :=
  { h with flen_le := Nat.zero_le _, flen_zero := fun _ => rfl, ftag_digits := fun hf => absurd hf (by simp) }

theorem State.Inv.openComposite {s : State} (h : s.Inv) {t : Tag} (ht : isDigitTag t = true) :
    (s.openComposite t).Inv :=
  { h with
    clen_le := Nat.zero_le _
    clen_zero := fun _ => rfl
    ctag_digits := fun _ => ht
    composite_fields := isFieldEncodings_nil }

theorem State.Inv.closeComposite {s : State} (h : s.Inv) : s.closeComposite.Inv :=
  { h with
    clen_le := Nat.zero_le _
    clen_zero := fun _ => rfl
    ctag_digits := fun hf => absurd hf (by simp)
    composite_fields := isFieldEncodings_nil }

/-- Below 99 characters there is room for one more in the value buffer. -/
theorem State.Inv.vbufAppend {s : State} (h : s.Inv) (b : Byte) (ho : s.fopen = true) (hl : s.flen ≠ 99) :
    (s.vbufAppend b).Inv :=
  have hlt : s.flen < Config.maxValue := lt_of_le_of_ne h.flen_le hl
  { h with
    flen_le := hlt
    flen_zero := fun hf => absurd (hf.symm.trans ho) (by simp)
    vbuf_wf := Memory.wf_write s.flen b h.vbuf_wf
    vbuf_below := Memory.below_write b hlt h.vbuf_below }

/-- Raw bytes that fit the output. -/
theorem State.Inv.emitRawAll {s : State} (h : s.Inv) (e : List Byte) (hfit : s.olen + e.length ≤ Config.outCap) :
    (s.emitRawAll e).Inv := by
  rw [State.emitRawAll_eq]
  exact { h with
    olen_le := hfit
    obuf_wf := Memory.wf_writeAll s.olen e h.obuf_wf
    obuf_below := Memory.below_writeAll s.olen e hfit h.obuf_below }

/-- The CRC tap apart, `Emit` of a string does what `EmitRaw` does. -/
theorem State.emitAll_eq_setCrc (s : State) (e : List Byte) :
    s.emitAll e = (s.emitRawAll e).setCrc (crcFeed s.crc e) := by
  rw [State.emitAll_eq, State.emitRawAll_eq]; rfl

theorem State.Inv.emitAll {s : State} (h : s.Inv) (e : List Byte) (hfit : s.olen + e.length ≤ Config.outCap) :
    (s.emitAll e).Inv := by
  rw [State.emitAll_eq_setCrc]
  exact (h.emitRawAll e hfit).setCrc _

/-- A field that fits the open composite. -/
theorem State.Inv.cbufAppendAll_enc {s : State} (h : s.Inv) (ho : s.fopen = true) (hc : s.copen = true)
    (hfit : s.clen + s.flen + 4 ≤ 99) : (s.cbufAppendAll (enc s.ftag s.fieldValue)).Inv := by
  have hfit' : s.clen + (enc s.ftag s.fieldValue).length ≤ Config.maxValue := by
    simp only [length_enc, State.length_fieldValue, Config.maxValue]; omega
  have hval : IsFieldEncodings (s.cbufAppendAll (enc s.ftag s.fieldValue)).compositeValue := by
    rw [State.compositeValue_cbufAppendAll s _ h.cbuf_wf]
    exact h.composite_fields.append_enc (h.ftag_digits ho) (by simpa using h.flen_le)
  rw [State.cbufAppendAll_eq] at hval ⊢
  exact { h with
    clen_le := hfit'
    clen_zero := fun hf => absurd (hf.symm.trans hc) (by simp)
    composite_fields := hval
    cbuf_wf := Memory.wf_writeAll s.clen _ h.cbuf_wf
    cbuf_below := Memory.below_writeAll s.clen _ hfit' h.cbuf_below }

/-! ## Commands, events and steps -/

/-- The checks of a command are what its rule needs to keep the invariants. -/
theorem State.Inv.accepted {i : Instr} {s : State} (h : s.Inv) (hc : firstCause i s = none) :
    (Machine.accepted i s).Inv := by
  cases i with
  | nop => exact h
  | clear => exact s.resetBlock_inv
  | crcInit => exact h.setCrc _
  | crcByte b => exact h.setCrc _
  | crcEmit =>
    obtain ⟨-, -, hfit⟩ := (firstCause_crcEmit_eq_none s).mp hc
    exact h.emitRawAll _ hfit
  | fldOpen t =>
    obtain ⟨-, ht⟩ := (firstCause_fldOpen_eq_none t s).mp hc
    exact h.openField ht
  | fldByte b =>
    obtain ⟨ho, hl⟩ := (firstCause_fldByte_eq_none b s).mp hc
    exact h.vbufAppend b ho hl
  | fldClose =>
    obtain ⟨ho, hcomp, htop⟩ := (firstCause_fldClose_eq_none s).mp hc
    cases hco : s.copen with
    | true =>
      simp only [Machine.accepted, hco, if_true]
      exact (h.cbufAppendAll_enc ho hco (hcomp hco)).closeField
    | false =>
      simp only [Machine.accepted, hco, Bool.false_eq_true, if_false]
      exact (h.emitAll _ (by simpa [Nat.add_assoc] using htop hco)).closeField
  | cmpOpen t =>
    obtain ⟨-, -, ht⟩ := (firstCause_cmpOpen_eq_none t s).mp hc
    exact h.openComposite ht
  | cmpClose =>
    obtain ⟨-, -, hfit⟩ := (firstCause_cmpClose_eq_none s).mp hc
    exact (h.emitAll _ (by simpa [Nat.add_assoc] using hfit)).closeComposite
  | outByte b =>
    obtain ⟨-, -, hfit⟩ := (firstCause_outByte_eq_none b s).mp hc
    exact h.emitAll [b] hfit

theorem State.Inv.exec {i : Instr} {s t : State} (h : s.Inv) (he : Machine.exec i s = .next t) : t.Inv := by
  obtain ⟨-, -, rfl⟩ | ⟨c, -, -, rfl⟩ | ⟨-, hc, rfl⟩ := exec_cases he
  · exact h
  · exact h.raise c _
  · exact h.accepted hc

theorem State.Inv.unlessFaulted {s t : State} (h : s.Inv) (ht : t.Inv) : (s.unlessFaulted t).Inv := by
  obtain ⟨-, hg⟩ | ⟨-, hg⟩ := State.unlessFaulted_cases s t <;> rw [hg] <;> assumption

theorem State.Inv.execute {w : Word} {s t : State} (h : s.Inv) (he : Machine.execute w s = .next t) : t.Inv := by
  cases hd : decode w with
  | ok i => exact h.exec (execute_of_ok hd s ▸ he)
  | error e =>
    rw [execute_of_error hd] at he
    cases he
    exact h.unlessFaulted (h.raise _ w)

theorem State.Inv.answer {s : State} (h : s.Inv) (r : Response) : (s.answer r).Inv := h.withPort s.bus r s.drawn

theorem State.Inv.performEvent {e : BusEvent} {s t : State} (h : s.Inv) (he : Machine.performEvent e s = .next t) :
    t.Inv := by
  match e with
  | .access .host (.read off n) =>
    rw [Machine.performEvent, performAccess_read] at he
    cases he
    exact h.answer _
  | .access .host (.write off n v) =>
    rw [Machine.performEvent] at he
    obtain ⟨-, hw⟩ | ⟨-, hw⟩ := performAccess_write off n v s <;> rw [hw] at he
    · exact (h.answer _).execute he
    · cases he
      exact h.answer _
  | .access .other a => cases he
  | .reset p =>
    cases he
    obtain ⟨-, hr⟩ | ⟨-, hr⟩ := performReset_cases p s <;> rw [hr]
    · exact s.resetBlock_inv
    · exact s.resetBlock_inv.withPort _ _ _

/-- Settles O44: the invariant lemma of the event the step performs. -/
theorem invariantKeptByStep : Obligations.InvariantKeptByStep := by
  intro s t h hs
  obtain ⟨-, hq⟩ | ⟨e, rest, -, he⟩ := step_cases s
  · rw [hq] at hs
    cases hs
    exact h
  · exact (h.withPort rest s.resp s.drawn).performEvent (he ▸ hs)

/-- Settles O43: the reset state is a reset block with nothing at its port. -/
theorem invariantHoldsAtReset : Obligations.InvariantHoldsAtReset := State.reset.resetBlock_inv

end Sys2Proof.Machine
end

section
/-! What the commands leave alone: the elements of block state by command, and the bytes of the output. -/

namespace Sys2Proof.Machine

/-! ## The output -/

/-- `Emit` and `EmitRaw` of one byte append it. -/
theorem State.output_emit (s : State) (b : Byte) (h : Memory.wf s.obuf = true) : (s.emit b).output = s.output ++ [b] :=
  s.output_emitAll [b] h

/-- The bytes an accepted command appends to the output. -/
def emittedBytes (i : Instr) (s : State) : List Byte :=
  match i with
  | .crcEmit => hex s.crc
  | .fldClose => if s.copen then [] else enc s.ftag s.fieldValue
  | .cmpClose => enc s.ctag s.compositeValue
  | .outByte b => [b]
  | _ => []

theorem output_accepted {i : Instr} {s : State} (hw : Memory.wf s.obuf = true) (hi : i ≠ .clear) :
    (accepted i s).output = s.output ++ emittedBytes i s := by
  cases i with
  | clear => exact absurd rfl hi
  | crcEmit => exact s.output_emitRawAll _ hw
  | fldClose =>
    cases hc : s.copen with
    | true => simp [accepted, emittedBytes, hc, State.cbufAppendAll_eq, State.output]
    | false => simp [accepted, emittedBytes, hc, s.output_emitAll _ hw]
  | cmpClose => exact s.output_emitAll _ hw
  | outByte b => exact s.output_emit b hw
  | nop | crcInit | crcByte b | fldOpen x | fldByte b | cmpOpen x => exact (List.append_nil _).symm

/-- Settles O29: an accepted command appends, an ignored or a faulting one leaves the output. -/
theorem outputOnlyGrows : Obligations.OutputOnlyGrows := by
  intro i s t h hi he
  obtain ⟨-, -, rfl⟩ | ⟨c, -, -, rfl⟩ | ⟨-, -, rfl⟩ := exec_cases he
  · exact ⟨[], (List.append_nil _).symm⟩
  · exact ⟨[], (List.append_nil _).symm⟩
  · exact ⟨emittedBytes i s, output_accepted h.obuf_wf hi⟩

/-! ## The elements of block state -/

/-- NOP, CRC.INIT and CRC.BYTE have no cause of 60_exceptions.md R202. -/
theorem not_causeless_of_cause {i : Instr} {s : State} {c : FaultCode} (h : firstCause i s = some c) :
    i ≠ .nop ∧ i ≠ .crcInit ∧ ∀ b, i ≠ .crcByte b := by
  refine ⟨?_, ?_, fun b => ?_⟩ <;> rintro rfl <;> cases h

/-- Settles O28: an ignored command changes nothing, a faulting one the three fault elements, an accepted one what its rule
names. -/
theorem elementsChangeOnlyByTheirCommands : Obligations.ElementsChangeOnlyByTheirCommands := by
  intro i s t he hi
  obtain ⟨-, -, rfl⟩ | ⟨c, hf, hc, rfl⟩ | ⟨-, -, rfl⟩ := exec_cases he
  · simp
  · simp [hf, not_causeless_of_cause hc]
  · cases i with
    | clear => exact absurd rfl hi
    | fldClose => cases hc : s.copen <;> simp [accepted, State.emitAll_eq, State.cbufAppendAll_eq, hc]
    | crcEmit => simp [accepted, State.emitRawAll_eq]
    | cmpClose => simp [accepted, State.emitAll_eq]
    | nop | crcInit | crcByte b | fldOpen x | fldByte b | cmpOpen x | outByte b => simp [accepted]

end Sys2Proof.Machine
end

section
/-! The host's reads of the registers: a readable word is answered as data and nothing else changes (10_state.md R36 to
R44). -/

namespace Sys2Proof.Machine

/-- A word read at a readable, aligned offset answers the word that stands there. -/
theorem step_read_register {s : State} {off : Offset} {v : Word} (rest : List BusEvent) (ha : off.toNat % 4 = 0)
    (hv : readableWord s off.toNat = some v) :
    step { s with bus := .access .host (.read off 4) :: rest } = .next { s with bus := rest, resp := .data v } := by
  have hread : readAccess { s with bus := rest } off 4 = some v := (if_pos ⟨rfl, ha⟩).trans hv
  change performAccess (.read off 4) { s with bus := rest } = _
  rw [performAccess_read, hread]
  rfl

theorem getLsbD_flagBit {n k : Nat} (f : Bool) (h : n < 32) : (flagBit f k).getLsbD n = (decide (n = k) && f) := by
  simp only [flagBit, BitVec.getLsbD_shiftLeft, BitVec.getLsbD_setWidth, BitVec.getLsbD_ofBool]
  grind

/-- Every bit of STATUS (10_state.md R37). -/
theorem getLsbD_statusWord {n : Nat} (s : State) (h : n < 32) :
    (statusWord s).getLsbD n = ((decide (4 ≤ n) && s.errcode.getLsbD (n - 4)) ||
      (decide (n = 2) && s.fault) || (decide (n = 1) && s.copen) || (decide (n = 0) && s.fopen)) := by
  simp only [statusWord, BitVec.getLsbD_or, getLsbD_flagBit _ h, BitVec.getLsbD_shiftLeft, BitVec.getLsbD_setWidth]
  grind

/-- Settles O33. -/
theorem statusReadShowsFlags : Obligations.StatusReadShowsFlags := by
  intro s rest
  refine ⟨statusWord s, step_read_register rest rfl rfl, ?_, ?_, ?_, ?_, ?_, ?_⟩
  · simpa using getLsbD_statusWord (n := 0) s (by decide)
  · simpa using getLsbD_statusWord (n := 1) s (by decide)
  · simpa using getLsbD_statusWord (n := 2) s (by decide)
  · simpa using getLsbD_statusWord (n := 3) s (by decide)
  · refine BitVec.eq_of_getLsbD_eq fun n hn => ?_
    rw [BitVec.getLsbD_extractLsb', getLsbD_statusWord s (by omega)]
    simp [hn, show 4 + n ≠ 2 by omega, show 4 + n ≠ 1 by omega]
  · refine BitVec.eq_of_getLsbD_eq fun n hn => ?_
    rw [BitVec.getLsbD_extractLsb', getLsbD_statusWord s (by omega), BitVec.getLsbD_of_ge s.errcode _ (by omega)]
    simp; omega

/-- A register that holds a number, read at the offset where it stands. -/
theorem step_reads_number {s : State} {off : Offset} {v : Word} {n : Nat} (rest : List BusEvent)
    (ha : off.toNat % 4 = 0) (hv : readableWord s off.toNat = some v) (hn : v.toNat = n) :
    ∃ v : Word, step { s with bus := .access .host (.read off 4) :: rest } =
      .next { s with bus := rest, resp := .data v } ∧ v.toNat = n :=
  ⟨v, step_read_register rest ha hv, hn⟩

theorem toNat_zext_ofNat {w n : Nat} (hw : w ≤ 32) (hn : n < 2 ^ w) : ((BitVec.ofNat w n).setWidth 32).toNat = n := by
  rw [BitVec.toNat_setWidth_of_le hw, BitVec.toNat_ofNat, Nat.mod_eq_of_lt hn]

/-- Settles O34: the invariants keep each counter in its register's width. -/
theorem registerReadsShowState : Obligations.RegisterReadsShowState := by
  intro s rest h
  have hf : s.flen < 2 ^ 7 := h.flen_le.trans_lt (by decide)
  have hc : s.clen < 2 ^ 7 := h.clen_le.trans_lt (by decide)
  have ho : s.olen < 2 ^ 11 := h.olen_le.trans_lt (by decide)
  simp only [List.forall_mem_cons]
  refine ⟨?crc, ?olen, ?flen, ?clen, ?ftag, ?ctag, ?errcmd, by simp⟩
  case crc => exact step_reads_number rest rfl rfl (BitVec.toNat_setWidth_of_le (by decide))
  case olen => exact step_reads_number rest rfl rfl (toNat_zext_ofNat (by decide) ho)
  case flen => exact step_reads_number rest rfl rfl (toNat_zext_ofNat (by decide) hf)
  case clen => exact step_reads_number rest rfl rfl (toNat_zext_ofNat (by decide) hc)
  case ftag => exact step_reads_number rest rfl rfl (BitVec.toNat_setWidth_of_le (by decide))
  case ctag => exact step_reads_number rest rfl rfl (BitVec.toNat_setWidth_of_le (by decide))
  case errcmd => exact step_reads_number rest rfl rfl rfl

end Sys2Proof.Machine
end

section
/-! Buffer bytes at or above their counts never make a difference (10_state.md R46): two states that differ in nothing else
are kept so by every operation, hence by every command, every event and every step. -/

namespace Sys2Proof.Machine

/-- Buffers with equal first bytes agree at each of their indices. -/
theorem Memory.read_eq_of_firstBytes_eq {m m' : Memory} {n a : Nat}
    (h : Memory.firstBytes m n = Memory.firstBytes m' n) (ha : a < n) : Memory.read m a = Memory.read m' a :=
  List.map_inj_left.mp h a (List.mem_range.mpr ha)

/-! ## The elements two such states share -/

section
variable {s t : State} (h : SameToHost s t)
include h

theorem SameToHost.crc : t.crc = s.crc := by rw [h.rest]
theorem SameToHost.fopen : t.fopen = s.fopen := by rw [h.rest]
theorem SameToHost.ftag : t.ftag = s.ftag := by rw [h.rest]
theorem SameToHost.flen : t.flen = s.flen := by rw [h.rest]
theorem SameToHost.copen : t.copen = s.copen := by rw [h.rest]
theorem SameToHost.ctag : t.ctag = s.ctag := by rw [h.rest]
theorem SameToHost.clen : t.clen = s.clen := by rw [h.rest]
theorem SameToHost.olen : t.olen = s.olen := by rw [h.rest]
theorem SameToHost.fault : t.fault = s.fault := by rw [h.rest]
theorem SameToHost.errcode : t.errcode = s.errcode := by rw [h.rest]
theorem SameToHost.errcmd : t.errcmd = s.errcmd := by rw [h.rest]
theorem SameToHost.bus : t.bus = s.bus := by rw [h.rest]
theorem SameToHost.resp : t.resp = s.resp := by rw [h.rest]
theorem SameToHost.drawn : t.drawn = s.drawn := by rw [h.rest]

end

theorem SameToHost.refl (s : State) : SameToHost s s := ⟨rfl, rfl, rfl, rfl⟩

/-! ## The operations -/

section
variable {s t : State} (h : SameToHost s t)
include h

theorem SameToHost.raise (c : FaultCode) (w : Word) : SameToHost (s.raise c w) (t.raise c w) where
  rest := congrArg (State.raise · c w) h.rest
  value := h.value
  composite := h.composite
  output := h.output

theorem SameToHost.openField (x : Tag) : SameToHost (s.openField x) (t.openField x) where
  rest := congrArg (State.openField · x) h.rest
  value := rfl
  composite := h.composite
  output := h.output

theorem SameToHost.vbufAppend (b : Byte) (hs : Memory.wf s.vbuf = true) (ht : Memory.wf t.vbuf = true) :
    SameToHost (s.vbufAppend b) (t.vbufAppend b) where
  rest := by rw [State.vbufAppend, h.rest]; rfl
  value := by rw [State.fieldValue_vbufAppend t b ht, State.fieldValue_vbufAppend s b hs, h.value]
  composite := h.composite
  output := h.output

theorem SameToHost.closeField : SameToHost s.closeField t.closeField where
  rest := congrArg State.closeField h.rest
  value := rfl
  composite := h.composite
  output := h.output

theorem SameToHost.openComposite (x : Tag) : SameToHost (s.openComposite x) (t.openComposite x) where
  rest := congrArg (State.openComposite · x) h.rest
  value := h.value
  composite := rfl
  output := h.output

theorem SameToHost.closeComposite : SameToHost s.closeComposite t.closeComposite where
  rest := congrArg State.closeComposite h.rest
  value := h.value
  composite := rfl
  output := h.output

theorem SameToHost.setCrc (c : Crc) : SameToHost (s.setCrc c) (t.setCrc c) where
  rest := congrArg (State.setCrc · c) h.rest
  value := h.value
  composite := h.composite
  output := h.output

/-- The port's queue, set alike in both. -/
theorem SameToHost.withBus (bus : List BusEvent) : SameToHost { s with bus := bus } { t with bus := bus } where
  rest := congrArg (fun u : State => { u with bus := bus }) h.rest
  value := h.value
  composite := h.composite
  output := h.output

theorem SameToHost.answer (r : Response) : SameToHost (s.answer r) (t.answer r) where
  rest := congrArg (State.answer · r) h.rest
  value := h.value
  composite := h.composite
  output := h.output

theorem SameToHost.emitRawAll (e : List Byte) (hs : Memory.wf s.obuf = true) (ht : Memory.wf t.obuf = true) :
    SameToHost (s.emitRawAll e) (t.emitRawAll e) where
  rest := by rw [State.emitRawAll_eq, State.emitRawAll_eq, h.rest]
  value := by simpa [State.emitRawAll_eq, State.fieldValue] using h.value
  composite := by simpa [State.emitRawAll_eq, State.compositeValue] using h.composite
  output := by rw [t.output_emitRawAll e ht, s.output_emitRawAll e hs, h.output]

theorem SameToHost.emitAll (e : List Byte) (hs : Memory.wf s.obuf = true) (ht : Memory.wf t.obuf = true) :
    SameToHost (s.emitAll e) (t.emitAll e) := by
  rw [State.emitAll_eq_setCrc, State.emitAll_eq_setCrc, h.crc]
  exact (h.emitRawAll e hs ht).setCrc _

theorem SameToHost.cbufAppendAll (e : List Byte) (hs : Memory.wf s.cbuf = true) (ht : Memory.wf t.cbuf = true) :
    SameToHost (s.cbufAppendAll e) (t.cbufAppendAll e) where
  rest := by rw [State.cbufAppendAll_eq, State.cbufAppendAll_eq, h.rest]
  value := by simpa [State.cbufAppendAll_eq, State.fieldValue] using h.value
  composite := by rw [t.compositeValue_cbufAppendAll e ht, s.compositeValue_cbufAppendAll e hs, h.composite]
  output := by simpa [State.cbufAppendAll_eq, State.output] using h.output

theorem SameToHost.resetBlock : t.resetBlock = s.resetBlock := by
  simp only [State.resetBlock, h.bus, h.resp, h.drawn]

/-! ## Commands -/

/-- A command's causes look at no buffer byte. -/
theorem SameToHost.firstCause (i : Instr) : Machine.firstCause i t = Machine.firstCause i s := by
  have hcauses : causes i t = causes i s := by
    cases i <;> simp only [causes, h.fopen, h.copen, h.flen, h.clen, h.olen]
  rw [Machine.firstCause, hcauses, Machine.firstCause]

/-- What a command emits or buffers is built from counted bytes only. -/
theorem SameToHost.accepted (i : Instr) (hs : s.Inv) (ht : t.Inv) :
    SameToHost (Machine.accepted i s) (Machine.accepted i t) := by
  cases i with
  | nop => exact h
  | clear => simp only [Machine.accepted, h.resetBlock]; exact .refl _
  | crcInit => exact h.setCrc _
  | crcByte b => simp only [Machine.accepted, h.crc]; exact h.setCrc _
  | crcEmit => simp only [Machine.accepted, h.crc]; exact h.emitRawAll _ hs.obuf_wf ht.obuf_wf
  | fldOpen x => exact h.openField x
  | fldByte b => exact h.vbufAppend b hs.vbuf_wf ht.vbuf_wf
  | fldClose =>
    simp only [Machine.accepted, h.copen, h.ftag, h.value]
    split
    · exact (h.cbufAppendAll _ hs.cbuf_wf ht.cbuf_wf).closeField
    · exact (h.emitAll _ hs.obuf_wf ht.obuf_wf).closeField
  | cmpOpen x => exact h.openComposite x
  | cmpClose =>
    simp only [Machine.accepted, h.ctag, h.composite]
    exact (h.emitAll _ hs.obuf_wf ht.obuf_wf).closeComposite
  | outByte b => exact h.emitAll [b] hs.obuf_wf ht.obuf_wf

theorem SameToHost.performed (i : Instr) (hs : s.Inv) (ht : t.Inv) :
    SameToHost (Machine.performed i s) (Machine.performed i t) := by
  cases hc : Machine.firstCause i s with
  | some c =>
    rw [performed_of_cause hc, performed_of_cause ((h.firstCause i).trans hc)]
    exact h.raise c _
  | none =>
    rw [performed_of_no_cause hc, performed_of_no_cause ((h.firstCause i).trans hc)]
    exact h.accepted i hs ht

theorem SameToHost.unlessFaulted {s' t' : State} (h' : SameToHost s' t') :
    SameToHost (s.unlessFaulted s') (t.unlessFaulted t') := by
  simp only [State.unlessFaulted, h.fault]
  split
  · exact h
  · exact h'

theorem SameToHost.exec {i : Instr} {s' t' : State} (hs : s.Inv) (ht : t.Inv) (hes : Machine.exec i s = .next s')
    (het : Machine.exec i t = .next t') : SameToHost s' t' := by
  by_cases hi : i = .clear
  · subst hi
    cases hes
    cases het
    exact h.accepted .clear hs ht
  · rw [exec_eq_performed _ hi, Host.Outcome.next.injEq] at hes het
    subst hes het
    exact h.unlessFaulted (h.performed i hs ht)

theorem SameToHost.execute {w : Word} {s' t' : State} (hs : s.Inv) (ht : t.Inv)
    (hes : Machine.execute w s = .next s') (het : Machine.execute w t = .next t') : SameToHost s' t' := by
  cases hd : decode w with
  | ok i =>
    rw [execute_of_ok hd] at hes het
    exact h.exec hs ht hes het
  | error e =>
    rw [execute_of_error hd, Host.Outcome.next.injEq] at hes het
    subst hes het
    exact h.unlessFaulted (h.raise _ w)

/-! ## Reads -/

theorem SameToHost.windowWord (i : Nat) : Machine.windowWord t i = Machine.windowWord s i := by
  simp only [Machine.windowWord, h.olen]
  split
  next hi =>
    have hbytes : Memory.firstBytes t.obuf s.olen = Memory.firstBytes s.obuf s.olen :=
      (congrArg t.obuf.firstBytes h.olen).symm.trans h.output
    rw [Memory.read_eq_of_firstBytes_eq hbytes hi]
  next => rfl

/-- No register and no window word shows a hidden byte. -/
theorem SameToHost.readAccess (off : Offset) (n : Nat) : Machine.readAccess t off n = Machine.readAccess s off n := by
  simp only [Machine.readAccess, readableWord, statusWord, crcWord, olenWord, flenWord, clenWord, ftagWord, ctagWord,
    errcmdWord, h.windowWord, h.crc, h.fopen, h.ftag, h.flen, h.copen, h.ctag, h.clen, h.olen, h.fault, h.errcode,
    h.errcmd]

/-! ## Events and steps -/

theorem SameToHost.performReset (p : Option Access) : Machine.performReset p t = Machine.performReset p s := by
  cases p <;> simp only [Machine.performReset, h.resetBlock, h.drawn]

theorem SameToHost.performEvent {e : BusEvent} {s' t' : State} (hs : s.Inv) (ht : t.Inv)
    (hes : Machine.performEvent e s = .next s') (het : Machine.performEvent e t = .next t') : SameToHost s' t' := by
  match e with
  | .access .host (.read off n) =>
    rw [Machine.performEvent, performAccess_read, Host.Outcome.next.injEq] at hes het
    subst hes het
    rw [h.readAccess]
    exact h.answer _
  | .access .host (.write off n v) =>
    simp only [Machine.performEvent, performAccess] at hes het
    cases hw : writeAccepted off n with
    | true =>
      rw [if_pos hw] at hes het
      exact (h.answer .done).execute (hs.answer _) (ht.answer _) hes het
    | false =>
      simp only [hw, Bool.false_eq_true, if_false, Host.Outcome.next.injEq] at hes het
      subst hes het
      exact h.answer _
  | .access .other a => cases hes
  | .reset p =>
    cases hes
    cases het
    rw [h.performReset]
    exact .refl _

end

/-- Settles O52: both states perform the same event. -/
theorem hiddenBytesNeverObserved : Obligations.HiddenBytesNeverObserved := by
  intro s t s' t' hs ht h hes het
  cases hb : s.bus with
  | nil =>
    rw [step_of_quiet hb, Host.Outcome.next.injEq] at hes
    rw [step_of_quiet (h.bus.trans hb), Host.Outcome.next.injEq] at het
    subst hes het
    exact h
  | cons e rest =>
    rw [step_of_event hb] at hes
    rw [step_of_event (h.bus.trans hb)] at het
    exact (h.withBus rest).performEvent (hs.withPort rest _ _) (ht.withPort rest _ _) hes het

end Sys2Proof.Machine
end

section
/-! The register port (20_memory.md sections 1, 2 and 5): the window at BASE, the answers of reads and writes, and the
frame of the commands towards it. -/

namespace Sys2Proof.Machine

/-! ## The window at BASE -/

theorem index_eq_baseIndex_iff (addr : Nat) :
    addr / Config.windowBytes = Config.baseIndex ↔ Config.base ≤ addr ∧ addr < Config.base + 0x2000 := by
  simp only [Config.base, Config.windowBytes]
  omega

theorem windowOffset_base_add {a : Nat} (h : a < 0x2000) :
    windowOffset (Config.base + a) = some (BitVec.ofNat 13 a) := by
  have hindex : (Config.base + a) / Config.windowBytes = Config.baseIndex :=
    (index_eq_baseIndex_iff _).mpr (by omega)
  have hoffset : BitVec.ofNat 13 (Config.base + a) = BitVec.ofNat 13 a :=
    BitVec.eq_of_toNat_eq (Nat.mul_add_mod Config.windowBytes Config.baseIndex a)
  rw [windowOffset, if_pos hindex, hoffset]

theorem windowOffset_of_outside {addr : Nat} (h : addr < Config.base ∨ Config.base + 0x2000 ≤ addr) :
    windowOffset addr = none :=
  if_neg fun hindex => by
    have hwindow := (index_eq_baseIndex_iff addr).mp hindex
    omega

/-- Settles O40. -/
theorem windowAtBase : Obligations.WindowAtBase :=
  ⟨fun _ => windowOffset_base_add, fun _ => windowOffset_of_outside⟩

/-! ## Commands leave the port alone -/

theorem accepted_port (i : Instr) (s : State) :
    (accepted i s).bus = s.bus ∧ (accepted i s).resp = s.resp ∧ (accepted i s).drawn = s.drawn := by
  cases i with
  | crcEmit => simp [accepted, State.emitRawAll_eq]
  | fldClose => cases hc : s.copen <;> simp [accepted, State.emitAll_eq, State.cbufAppendAll_eq, hc]
  | cmpClose => simp [accepted, State.emitAll_eq]
  | nop | clear | crcInit | crcByte b | fldOpen x | fldByte b | cmpOpen x | outByte b => exact ⟨rfl, rfl, rfl⟩

/-- Settles O27: whether a command is ignored, faults or is accepted, it names no port field. -/
theorem commandsLeavePortAlone : Obligations.CommandsLeavePortAlone := by
  intro i s t h
  obtain ⟨-, -, rfl⟩ | ⟨c, -, -, rfl⟩ | ⟨-, -, rfl⟩ := exec_cases h
  · exact ⟨rfl, rfl, rfl⟩
  · exact ⟨rfl, rfl, rfl⟩
  · exact accepted_port i s

/-! ## Any read -/

/-- The response to a read: the word the map shows there, or a bus error. -/
def readResponse (s : State) (a : Offset) (n : Nat) : Response := ((readAccess s a n).map .data).getD .busError

/-- A read takes its event off the port and sets the response; it touches nothing of the block. -/
theorem step_read (s : State) (rest : List BusEvent) (a : Offset) (n : Nat) :
    step { s with bus := .access .host (.read a n) :: rest } =
      .next { s with bus := rest, resp := readResponse s a n } := by
  rw [step_of_event rfl]
  exact performAccess_read a n _

/-- What a read answers depends on the block alone, not on the events waiting or the response before. -/
theorem readResponse_withPort (s : State) (bus : List BusEvent) (r : Response) (a : Offset) (n : Nat) :
    readResponse { s with bus := bus, resp := r } a n = readResponse s a n := rfl

theorem run_succ_of_step {s t : State} (k : Nat) (h : step s = .next t) :
    Host.Core.run Sys2Proof.core (k + 1) s = Host.Core.run Sys2Proof.core k t := by
  simp only [Host.Core.run, Host.Check.core_step, h]

/-- Settles O37: the second read finds the block as the first one did. -/
theorem readsAreIdempotent : Obligations.ReadsAreIdempotent := by
  intro s rest a n
  refine ⟨readResponse s a n, step_read s rest a n, ?_⟩
  rw [run_succ_of_step 1 (step_read s _ a n),
    run_succ_of_step 0 (step_read { s with resp := readResponse s a n } rest a n), readResponse_withPort]
  rfl

/-! ## The output window -/

theorem readableWord_window (s : State) {i : Nat} (h : i < Config.outCap) :
    readableWord s (0x1000 + 4 * i) = some (windowWord s i) := by
  have hoff : (0x1000 + 4 * i - windowStart) / 4 = i := by simp [windowStart]
  have hin : windowStart ≤ 0x1000 + 4 * i ∧ 0x1000 + 4 * i < windowStart + 4 * Config.outCap := by
    simp only [windowStart]
    omega
  have hreg {k : Nat} (hk : k ≤ 0x020) : 0x1000 + 4 * i ≠ k := by omega
  simp [readableWord, hreg, hin, hoff]

/-- Settles O35: the window's words are readable, and word `i` is `windowWord s i`. -/
theorem outputWindowReads : Obligations.OutputWindowReads := by
  intro s rest i hi
  have hcap : i < 1024 := hi
  have hoff : (BitVec.ofNat 13 (0x1000 + 4 * i)).toNat = 0x1000 + 4 * i := by
    rw [BitVec.toNat_ofNat, Nat.mod_eq_of_lt (by omega)]
  refine step_read_register rest ?_ ?_
  · rw [hoff]
    omega
  · rw [hoff]
    exact readableWord_window s hi

/-! ## Bus errors -/

/-- The offsets of the readable registers and of the output window (20_memory.md R51). -/
def ReadableOffset (off : Nat) : Prop :=
  (0x004 ≤ off ∧ off ≤ 0x020) ∨ (0x1000 ≤ off ∧ off < 0x1000 + 4 * Config.outCap)

/-- Of the aligned offsets, the map shows a word exactly at the readable ones. -/
theorem isSome_readableWord_iff (s : State) {off : Nat} (h : off % 4 = 0) :
    (readableWord s off).isSome ↔ ReadableOffset off := by
  unfold readableWord ReadableOffset windowStart
  split_ifs <;> simp <;> omega

theorem isSome_readAccess_iff (s : State) (a : Offset) (n : Nat) :
    (readAccess s a n).isSome ↔ n = 4 ∧ a.toNat % 4 = 0 ∧ ReadableOffset a.toNat := by
  unfold readAccess
  split
  next h => simp [h, isSome_readableWord_iff s h.2]
  next h => simp only [Option.isSome_none, Bool.false_eq_true, false_iff]; tauto

theorem writeAccepted_iff (a : Offset) (n : Nat) : writeAccepted a n = true ↔ n = 4 ∧ a.toNat = 0 := by
  simp [writeAccepted, BitVec.toNat_eq]

theorem step_write_accepted {s : State} {a : Offset} {n : Nat} (rest : List BusEvent) (v : Word)
    (h : writeAccepted a n = true) :
    step { s with bus := .access .host (.write a n v) :: rest } =
      execute v { s with bus := rest, resp := .done } := by
  rw [step_of_event rfl]
  exact if_pos h

theorem step_write_refused {s : State} {a : Offset} {n : Nat} (rest : List BusEvent) (v : Word)
    (h : ¬ writeAccepted a n = true) :
    step { s with bus := .access .host (.write a n v) :: rest } =
      .next { s with bus := rest, resp := .busError } := by
  rw [step_of_event rfl]
  exact if_neg h

/-- Settles O36: reads by where the map shows a word, writes by where they are accepted. -/
theorem busErrorsChangeNothing : Obligations.BusErrorsChangeNothing := by
  intro s rest a n
  refine ⟨fun hbad => ?_, fun hgood => ?_, fun hbad v => ?_, fun hgood v => ?_⟩
  · have hnone : readAccess s a n = none := by
      rwa [← Option.not_isSome_iff_eq_none, isSome_readAccess_iff]
    rw [step_read, readResponse, hnone]
    rfl
  · obtain ⟨v, hv⟩ := Option.isSome_iff_exists.mp ((isSome_readAccess_iff s a n).mpr hgood)
    refine ⟨v, ?_⟩
    rw [step_read, readResponse, hv]
    rfl
  · exact step_write_refused rest v (mt (writeAccepted_iff a n).mp hbad)
  · exact step_write_accepted rest v ((writeAccepted_iff a n).mpr hgood)

end Sys2Proof.Machine
end

section
/-! The command word (30_encoding.md R70 to R76): a word decodes to a command exactly when it is that command's word, the
rows of the opcode map select exactly those words, and a CMD write executes its word. -/

namespace Sys2Proof.Machine

/-! ## Decoding an encoded command -/

/-- Settles O1: the fields of each form of word are those it was made of, and its reserved bits are zero. -/
theorem decodeInvertsEncode : Obligations.DecodeInvertsEncode := by
  intro i
  cases i with
  | nop | clear | crcInit | crcEmit | fldClose | cmpClose =>
    simp [encode, decode, decodeN, opcodeField_wordN, operand_wordN]
  | crcByte b | fldByte b | outByte b =>
    simp [encode, decode, decodeB, opcodeField_wordB, reserved_wordB, byte_wordB]
  | fldOpen t | cmpOpen t => simp [encode, decode, decodeT, opcodeField_wordT, reserved_wordT, tag_wordT]

/-! ## A word is made of its fields -/

/-- A word whose bits from `lo` up to the opcode are zero has none of those bits set. -/
theorem getLsbD_of_reserved {w : Word} {lo n k : Nat} (hr : w.extractLsb' lo n = 0) (hlo : lo ≤ k) (hn : k < lo + n) :
    w.getLsbD k = false := by
  have hbit := congrArg (BitVec.getLsbD · (k - lo)) hr
  simpa [BitVec.getLsbD_extractLsb', show k - lo < n by omega, show lo + (k - lo) = k by omega] using hbit

theorem wordN_of_fields {w : Word} (hr : w.extractLsb' 0 28 = 0) : wordN (opcodeField w) = w := by
  refine BitVec.eq_of_getLsbD_eq fun k hk => ?_
  have hz := getLsbD_of_reserved (k := k) hr
  interval_cases k <;> simp_all [opcodeField, wordN]

theorem wordB_of_fields {w : Word} (hr : w.extractLsb' 8 20 = 0) : wordB (opcodeField w) (w.extractLsb' 0 8) = w := by
  refine BitVec.eq_of_getLsbD_eq fun k hk => ?_
  have hz := getLsbD_of_reserved (k := k) hr
  interval_cases k <;> simp_all [opcodeField, wordB, wordN]

theorem wordT_of_fields {w : Word} (hr : w.extractLsb' 16 12 = 0) : wordT (opcodeField w) (w.extractLsb' 0 16) = w := by
  refine BitVec.eq_of_getLsbD_eq fun k hk => ?_
  have hz := getLsbD_of_reserved (k := k) hr
  interval_cases k <;> simp_all [opcodeField, wordT, wordN]

/-! Each form's decoder accepts only the word its form gives the command. -/

theorem decodeN_eq_ok {w : Word} {n : Nat} {i j : Instr} (ho : (opcodeField w).toNat = n)
    (h : decodeN w i = .ok j) : j = i ∧ wordN (.ofNat 4 n) = w := by
  unfold decodeN at h
  split at h
  next hr =>
    rw [← ho, BitVec.ofNat_toNat, BitVec.setWidth_eq]
    exact ⟨(Except.ok.inj h).symm, wordN_of_fields hr⟩
  next => cases h

theorem decodeB_eq_ok {w : Word} {n : Nat} {i : Byte → Instr} {j : Instr} (ho : (opcodeField w).toNat = n)
    (h : decodeB w i = .ok j) : ∃ b, j = i b ∧ wordB (.ofNat 4 n) b = w := by
  unfold decodeB at h
  split at h
  next hr =>
    rw [← ho, BitVec.ofNat_toNat, BitVec.setWidth_eq]
    exact ⟨_, (Except.ok.inj h).symm, wordB_of_fields hr⟩
  next => cases h

theorem decodeT_eq_ok {w : Word} {n : Nat} {i : Tag → Instr} {j : Instr} (ho : (opcodeField w).toNat = n)
    (h : decodeT w i = .ok j) : ∃ t, j = i t ∧ wordT (.ofNat 4 n) t = w := by
  unfold decodeT at h
  split at h
  next hr =>
    rw [← ho, BitVec.ofNat_toNat, BitVec.setWidth_eq]
    exact ⟨_, (Except.ok.inj h).symm, wordT_of_fields hr⟩
  next => cases h

/-- Settles O2: the opcode picks the form, and the form's decoder accepts only the form's own word. -/
theorem encodeInvertsDecode : Obligations.EncodeInvertsDecode := by
  intro w i h
  unfold decode at h
  split at h
  case h_1 | h_2 | h_3 | h_5 | h_8 | h_10 =>
    rename_i ho
    obtain ⟨rfl, hw⟩ := decodeN_eq_ok ho h
    exact hw
  case h_4 | h_7 | h_11 =>
    rename_i ho
    obtain ⟨b, rfl, hw⟩ := decodeB_eq_ok ho h
    exact hw
  case h_6 | h_9 =>
    rename_i ho
    obtain ⟨t, rfl, hw⟩ := decodeT_eq_ok ho h
    exact hw
  case h_12 => cases h

/-- A word decodes to a command exactly when it is the command's word (30_encoding.md R75). -/
theorem decode_eq_ok_iff (w : Word) (i : Instr) : decode w = .ok i ↔ encode i = w :=
  ⟨encodeInvertsDecode w i, fun h => h ▸ decodeInvertsEncode i⟩

/-! ## The opcode map -/

theorem rowOf_mem_opcodeRows (i : Instr) : rowOf i ∈ opcodeRows := by
  cases i <;> simp [opcodeRows, rowOf]

theorem rowSelects_encode (i : Instr) : rowSelects (rowOf i) (encode i) = true := by
  cases i with
  | nop => exact Laws.RowMatch.nop
  | clear => exact Laws.RowMatch.clear
  | crcInit => exact Laws.RowMatch.crcInit
  | crcByte b => exact Laws.RowMatch.crcByte b
  | crcEmit => exact Laws.RowMatch.crcEmit
  | fldOpen t => exact Laws.RowMatch.fldOpen t
  | fldByte b => exact Laws.RowMatch.fldByte b
  | fldClose => exact Laws.RowMatch.fldClose
  | cmpOpen t => exact Laws.RowMatch.cmpOpen t
  | cmpClose => exact Laws.RowMatch.cmpClose
  | outByte b => exact Laws.RowMatch.outByte b

/-- Every row's mask covers the opcode, so the opcode of a word is that of the row that selects it. -/
theorem opcodeField_of_rowSelects {r : OpcodeRow} {w : Word} (hr : r ∈ opcodeRows) (h : rowSelects r w = true) :
    opcodeField w = opcodeField r.pattern := by
  have hmask : ∀ r ∈ opcodeRows, opcodeField r.mask = BitVec.allOnes 4 := by decide
  have hpattern : w &&& r.mask = r.pattern := beq_iff_eq.mp h
  rw [← hpattern]
  simp only [opcodeField, BitVec.extractLsb'_and] at hmask ⊢
  rw [hmask r hr, BitVec.and_allOnes]

/-- No two rows of the map have the same opcode. -/
theorem eq_of_opcodeField_pattern_eq :
    ∀ r ∈ opcodeRows, ∀ r' ∈ opcodeRows, opcodeField r.pattern = opcodeField r'.pattern → r = r' := by decide

/-- At most one row of the map selects a word (30_encoding.md R73). -/
theorem eq_of_rowSelects {r r' : OpcodeRow} {w : Word} (hr : r ∈ opcodeRows) (hr' : r' ∈ opcodeRows)
    (h : rowSelects r w = true) (h' : rowSelects r' w = true) : r = r' :=
  eq_of_opcodeField_pattern_eq r hr r' hr'
    ((opcodeField_of_rowSelects hr h).symm.trans (opcodeField_of_rowSelects hr' h'))

/-- A masked word with the bits the mask took off put back. -/
theorem or_and_not_of_and_eq {w m p : Word} (h : w &&& m = p) : p ||| (w &&& ~~~m) = w := by
  rw [← h, ← BitVec.and_or_distrib_left, BitVec.or_not_self, BitVec.and_allOnes]

/-! The three masks of the map leave nothing, the byte and the tag of a word. -/

theorem wordN_of_rowSelects {op : BitVec 4} {w : Word} (h : rowSelects ⟨wordN op, 0xFFFFFFFF⟩ w = true) :
    wordN op = w :=
  (beq_iff_eq.mp h).symm.trans (BitVec.and_allOnes (x := w))

theorem wordB_of_rowSelects {op : BitVec 4} {w : Word} (h : rowSelects ⟨wordN op, 0xFFFFFF00⟩ w = true) :
    wordB op (w.extractLsb' 0 8) = w := by
  have hbyte : (w.extractLsb' 0 8).setWidth 32 = w &&& ~~~0xFFFFFF00 := by
    refine BitVec.eq_of_getLsbD_eq fun k hk => ?_
    interval_cases k <;> simp
  rw [wordB, hbyte]
  exact or_and_not_of_and_eq (beq_iff_eq.mp h)

theorem wordT_of_rowSelects {op : BitVec 4} {w : Word} (h : rowSelects ⟨wordN op, 0xFFFF0000⟩ w = true) :
    wordT op (w.extractLsb' 0 16) = w := by
  have htag : (w.extractLsb' 0 16).setWidth 32 = w &&& ~~~0xFFFF0000 := by
    refine BitVec.eq_of_getLsbD_eq fun k hk => ?_
    interval_cases k <;> simp
  rw [wordT, htag]
  exact or_and_not_of_and_eq (beq_iff_eq.mp h)

/-- A word that a row of the map selects is the word of a command of that row. -/
theorem exists_encode_of_rowSelects {r : OpcodeRow} {w : Word} (hr : r ∈ opcodeRows) (h : rowSelects r w = true) :
    ∃ i, encode i = w := by
  simp only [opcodeRows, List.mem_cons, List.not_mem_nil, or_false] at hr
  rcases hr with rfl | rfl | rfl | rfl | rfl | rfl | rfl | rfl | rfl | rfl | rfl
  · exact ⟨.nop, wordN_of_rowSelects h⟩
  · exact ⟨.clear, wordN_of_rowSelects h⟩
  · exact ⟨.crcInit, wordN_of_rowSelects h⟩
  · exact ⟨.crcByte _, wordB_of_rowSelects h⟩
  · exact ⟨.crcEmit, wordN_of_rowSelects h⟩
  · exact ⟨.fldOpen _, wordT_of_rowSelects h⟩
  · exact ⟨.fldByte _, wordB_of_rowSelects h⟩
  · exact ⟨.fldClose, wordN_of_rowSelects h⟩
  · exact ⟨.cmpOpen _, wordT_of_rowSelects h⟩
  · exact ⟨.cmpClose, wordN_of_rowSelects h⟩
  · exact ⟨.outByte _, wordB_of_rowSelects h⟩

/-- Settles O3: a command's row selects its word, a row selects only words of its commands, and the opcodes tell the rows
apart. -/
theorem decodeFollowsOpcodeMap : Obligations.DecodeFollowsOpcodeMap := by
  simp only [Obligations.DecodeFollowsOpcodeMap, decode_eq_ok_iff]
  refine ⟨fun w => ⟨?_, ?_⟩, ?_⟩
  · rintro ⟨i, rfl⟩
    exact ⟨rowOf i, rowOf_mem_opcodeRows i, rowSelects_encode i⟩
  · rintro ⟨r, hr, h⟩
    exact exists_encode_of_rowSelects hr h
  · rintro _ i rfl
    refine ⟨rowOf_mem_opcodeRows i, fun r hr => ⟨fun h => ?_, ?_⟩⟩
    · exact eq_of_rowSelects hr (rowOf_mem_opcodeRows i) h (rowSelects_encode i)
    · rintro rfl
      exact rowSelects_encode i

/-- Settles O4, by running the decoder on each word. -/
theorem specWordsDecode : Obligations.SpecWordsDecode := by
  unfold Obligations.SpecWordsDecode
  decide

/-! ## From the port to a command -/

/-- A CMD write leaves the port, is answered, and executes its word. -/
theorem step_cmdWrite (s : State) (rest : List BusEvent) (w : Word) :
    step { s with bus := cmdWrite w :: rest } = execute w { s with bus := rest, resp := .done } :=
  step_write_accepted rest w rfl

/-- Settles O5: the write executes its word, and the word's execution is the command's. -/
theorem stepRunsDecodedCommand : Obligations.StepRunsDecodedCommand := by
  intro s rest w i h
  rw [step_cmdWrite, execute_of_ok h]

theorem execute_clearWord (s : State) : execute 0x10000000 s = .next s.resetBlock :=
  execute_of_ok (decodeInvertsEncode .clear) s

/-- In the fault state every word but CLEAR's is ignored (60_exceptions.md R204). -/
theorem execute_of_fault {s : State} {w : Word} (hf : s.fault = true) (hw : w ≠ 0x10000000) :
    execute w s = .next s := by
  cases hd : decode w with
  | error e => rw [execute_of_error hd, State.unlessFaulted_of_fault _ hf]
  | ok i =>
    have hi : i ≠ .clear := by
      rintro rfl
      exact hw (encodeInvertsDecode w .clear hd).symm
    rw [execute_of_ok hd, exec_eq_performed s hi, State.unlessFaulted_of_fault _ hf]

/-- Outside the fault state an illegal word raises IllegalCommand (30_encoding.md R75, R76). -/
theorem execute_illegal {s : State} {w : Word} {e : DecodeError} (hf : s.fault = false) (hd : decode w = .error e) :
    execute w s = .next (s.raise .illegalCommand w) := by
  rw [execute_of_error hd, State.unlessFaulted_of_no_fault _ hf]

/-- Settles O6: the gate of the fault state first, then what the word decodes to. -/
theorem commandWriteFollowsExecute : Obligations.CommandWriteFollowsExecute := by
  intro s rest w
  rw [step_cmdWrite]
  split
  next hf =>
    split
    next hw => rw [hw, execute_clearWord]; rfl
    next hw => exact execute_of_fault hf hw
  next hf =>
    split
    next e hd => exact execute_illegal (eq_false_of_ne_true hf) hd
    next i hd => exact execute_of_ok hd _

/-- OP 0xB to 0xF, or a set bit that the word's form requires to be zero (30_encoding.md R75). -/
def IllegalForm (w : Word) : Prop :=
  0xB ≤ (opcodeField w).toNat ∨
    ((opcodeField w).toNat ∈ [0x0, 0x1, 0x2, 0x4, 0x7, 0x9] ∧ w.extractLsb' 0 28 ≠ 0) ∨
    ((opcodeField w).toNat ∈ [0x3, 0x6, 0xA] ∧ w.extractLsb' 8 20 ≠ 0) ∨
    ((opcodeField w).toNat ∈ [0x5, 0x8] ∧ w.extractLsb' 16 12 ≠ 0)

/-- The word of a command is illegal in none of the four ways. -/
theorem not_illegalForm_encode (i : Instr) : ¬ IllegalForm (encode i) := by
  cases i with
  | nop | clear | crcInit | crcEmit | fldClose | cmpClose =>
    simp [IllegalForm, encode, opcodeField_wordN, operand_wordN]
  | crcByte b | fldByte b | outByte b => simp [IllegalForm, encode, opcodeField_wordB, reserved_wordB]
  | fldOpen t | cmpOpen t => simp [IllegalForm, encode, opcodeField_wordT, reserved_wordT]

theorem exists_decode_error_of_illegalForm {w : Word} (h : IllegalForm w) : ∃ e, decode w = .error e := by
  cases hd : decode w with
  | error e => exact ⟨e, rfl⟩
  | ok i => exact absurd (encodeInvertsDecode w i hd ▸ h) (not_illegalForm_encode i)

/-- Settles O9: an illegal form decodes to no command, so IllegalCommand is raised and the word recorded. -/
theorem illegalWordFaults : Obligations.IllegalWordFaults := by
  intro s rest w hf hw
  obtain ⟨e, hd⟩ := exists_decode_error_of_illegalForm hw
  rw [step_cmdWrite]
  exact execute_illegal hf hd

end Sys2Proof.Machine
end

section
/-! The assembler (30_encoding.md R77, R78): the readers on the texts of the plain layout, what they refuse, and a text
read line by line. -/

namespace Sys2Proof.Machine

/-! ## What may stand behind a line -/

/-- The end of the line: nothing, or a comment. -/
def LineTail (tail : List Char) : Prop := tail = [] ∨ ∃ c, tail = ';' :: c

theorem lineTail_nil : LineTail [] := .inl rfl

theorem LineTail.head_eq {tail : List Char} (h : LineTail tail) {c : Char} (hc : tail.head? = some c) : c = ';' := by
  obtain rfl | ⟨t, rfl⟩ := h
  · cases hc
  · exact (Option.some.inj hc).symm

theorem LineTail.atLineEnd {tail : List Char} (h : LineTail tail) : atLineEnd tail = true := by
  obtain rfl | ⟨t, rfl⟩ := h <;> rfl

/-- A run of characters ends where the tail begins, if a semicolon is none of them. -/
theorem LineTail.takeWhile_append {tail ds : List Char} {p : Char → Bool} (h : LineTail tail) (hp : p ';' = false)
    (hds : ∀ c ∈ ds, p c = true) : (ds ++ tail).takeWhile p = ds ∧ (ds ++ tail).dropWhile p = tail := by
  rw [List.takeWhile_append_of_pos hds, List.dropWhile_append_of_pos hds]
  obtain rfl | ⟨t, rfl⟩ := h <;> simp [hp]

/-! ## Byte operands -/

theorem decimalDigit_of_isDigit {c : Char} (h : c.isDigit = true) : decimalDigit c = some (c.toNat - 0x30) :=
  if_pos (Char.isDigit_iff_toNat.mp h)

/-- The assembler reads the number that a run of decimal digits writes. -/
theorem readDecimal_toDigits (n : Nat) {tail : List Char} (h : LineTail tail) :
    readDecimal (Nat.toDigits 10 n ++ tail) = some (n, tail) := by
  have hdigit : ∀ c ∈ Nat.toDigits 10 n, decimalDigit c = some (c.toNat - 0x30) := fun c hc =>
    decimalDigit_of_isDigit (Nat.isDigit_of_mem_toDigits (by decide) (by decide) hc)
  obtain ⟨htake, hdrop⟩ := h.takeWhile_append (p := fun c => (decimalDigit c).isSome) rfl
    (fun c hc => by rw [hdigit c hc]; rfl)
  have hvalue : (Nat.toDigits 10 n).foldl (fun n c => 10 * n + (decimalDigit c).getD 0) 0 = n :=
    calc (Nat.toDigits 10 n).foldl (fun n c => 10 * n + (decimalDigit c).getD 0) 0
      _ = Nat.ofDigitChars 10 (Nat.toDigits 10 n) 0 :=
        List.foldl_ext _ _ _ fun k c hc => by rw [hdigit c hc]; rfl
      _ = n := Nat.ofDigitChars_ten_toDigits
  simp [readDecimal, htake, hdrop, hvalue, Nat.toDigits_ne_nil]

/-- A decimal operand is read as a byte, or refused where it is above 255. -/
theorem readByte_toDigits (n : Nat) {tail : List Char} (h : LineTail tail) :
    readByte (' ' :: (Nat.toDigits 10 n ++ tail)) = if byteNumber n then some (BitVec.ofNat 8 n, tail) else none := by
  have hdigit : ∀ c ∈ Nat.toDigits 10 n, c.isDigit = true := fun c hc =>
    Nat.isDigit_of_mem_toDigits (by decide) (by decide) hc
  have hread := readDecimal_toDigits n h
  obtain ⟨x, xs, hxs⟩ := List.exists_cons_of_ne_nil (Nat.toDigits_ne_nil (n := n) (b := 10))
  rw [hxs] at hdigit hread ⊢
  have hx := hdigit x (by simp)
  have hskip : skipBlanks (' ' :: (x :: xs ++ tail)) = x :: xs ++ tail := by
    have h1 : x ≠ ' ' := by rintro rfl; cases hx
    have h2 : x ≠ '\t' := by rintro rfl; cases hx
    simp [skipBlanks, h1, h2]
  unfold readByte
  rw [hskip]
  split
  case h_1 heq =>
    obtain ⟨rfl, -⟩ := List.cons.inj heq
    cases hx
  case h_2 heq =>
    obtain ⟨-, hrest⟩ := List.cons.inj heq
    cases xs with
    | nil => cases h.head_eq (c := 'x') (by simpa using congrArg List.head? hrest)
    | cons y ys =>
      obtain ⟨rfl, -⟩ := List.cons.inj hrest
      cases hdigit 'x' (by simp)
  case h_3 =>
    rw [hread]
    rfl

/-- The assembler reads the hexadecimal characters of 40_crc.md R102. -/
theorem hexDigit_hexChar : ∀ n : BitVec 4, hexDigit (Char.ofNat (hexChar n).toNat) = some n.toNat := by decide

theorem ofNat_nibbles (b : Byte) :
    BitVec.ofNat 8 (16 * (b.extractLsb' 4 4).toNat + (b.extractLsb' 0 4).toNat) = b := by
  refine BitVec.eq_of_toNat_eq ?_
  simp only [BitVec.toNat_ofNat, BitVec.extractLsb'_toNat, Nat.shiftRight_eq_div_pow]
  omega

/-- Each way to write a byte is read as that byte. -/
theorem readByte_of_writesByte {x tail : List Char} {b : Byte} (hx : WritesByte x b) (h : LineTail tail) :
    readByte (' ' :: (x ++ tail)) = some (b, tail) := by
  cases hx with
  | character c hc => exact if_pos hc
  | hexadecimal b =>
    change ((hexDigit _).bind fun hi => (hexDigit _).bind fun lo => some (BitVec.ofNat 8 (16 * hi + lo), tail)) = _
    rw [hexDigit_hexChar, hexDigit_hexChar, Option.bind_some, Option.bind_some, ofNat_nibbles]
  | decimal n hn => rw [readByte_toDigits n h, if_pos (by simpa [byteNumber] using hn)]

/-! ## Mnemonics: the reader each one asks for (30_encoding.md R73, R77, R78) -/

section
variable (rest : List Char)

theorem readOperands_nop : readOperands "NOP".toList rest = readFormN .nop rest := by simp [readOperands]
theorem readOperands_clear : readOperands "CLEAR".toList rest = readFormN .clear rest := by simp [readOperands]
theorem readOperands_crcInit : readOperands "CRC.INIT".toList rest = readFormN .crcInit rest := by simp [readOperands]
theorem readOperands_crcByte : readOperands "CRC.BYTE".toList rest = readFormB .crcByte rest := by simp [readOperands]
theorem readOperands_crcEmit : readOperands "CRC.EMIT".toList rest = readFormN .crcEmit rest := by simp [readOperands]
theorem readOperands_fldOpen : readOperands "FLD.OPEN".toList rest = readFormT (.command ∘ .fldOpen) rest := by
  simp [readOperands]
theorem readOperands_fldByte : readOperands "FLD.BYTE".toList rest = readFormB .fldByte rest := by simp [readOperands]
theorem readOperands_fldClose : readOperands "FLD.CLOSE".toList rest = readFormN .fldClose rest := by
  simp [readOperands]
theorem readOperands_cmpOpen : readOperands "CMP.OPEN".toList rest = readFormT (.command ∘ .cmpOpen) rest := by
  simp [readOperands]
theorem readOperands_cmpClose : readOperands "CMP.CLOSE".toList rest = readFormN .cmpClose rest := by
  simp [readOperands]
theorem readOperands_outByte : readOperands "OUT.BYTE".toList rest = readFormB .outByte rest := by simp [readOperands]
theorem readOperands_field : readOperands "FIELD".toList rest = readField rest := by simp [readOperands]
theorem readOperands_composite : readOperands "COMPOSITE".toList rest = readComposite rest := by simp [readOperands]
theorem readOperands_out : readOperands "OUT".toList rest = readFormS .out rest := by simp [readOperands]
theorem readOperands_crcstr : readOperands "CRCSTR".toList rest = readFormS .crcstr rest := by simp [readOperands]
theorem readOperands_checksum : readOperands "CHECKSUM".toList rest = readFormT .checksum rest := by
  simp [readOperands]

end

/-! ## Lines, by the form of their operands -/

/-- A line that begins with a word in mnemonic characters is read by that word, if what follows is no part of it. -/
theorem assembleLine_append {m rest : List Char} (hm : m ≠ [] ∧ m.all mnemonicChar = true)
    (hr : ∀ c, rest.head? = some c → mnemonicChar c = false) :
    assembleLine (m ++ rest) = (readOperands m rest).map fun l => (expandLine l).map encode := by
  rw [assembleLine, readLine_append hm.1 hm.2 hr]

theorem assembleLine_append_blank {m : List Char} (rest : List Char) (hm : m ≠ [] ∧ m.all mnemonicChar = true) :
    assembleLine (m ++ ' ' :: rest) = (readOperands m (' ' :: rest)).map fun l => (expandLine l).map encode :=
  assembleLine_append hm (by rintro _ ⟨⟩; rfl)

section
variable {line m tail : List Char} (hm : m ≠ [] ∧ m.all mnemonicChar = true) (ht : LineTail tail)
include hm ht

theorem assembleLine_formN {i : Instr} (hread : ∀ rest, readOperands m rest = readFormN i rest) :
    assembleLine (m ++ tail) = some [encode i] := by
  rw [assembleLine_append hm (fun c hc => by rw [ht.head_eq hc]; rfl), hread, readFormN, if_pos ht.atLineEnd]
  rfl

theorem assembleLine_formB {x : List Char} {b : Byte} {i : Byte → Instr}
    (hread : ∀ rest, readOperands m rest = readFormB i rest) (hx : WritesByte x b)
    (hline : line = m ++ ' ' :: (x ++ tail)) : assembleLine line = some [encode (i b)] := by
  rw [hline, assembleLine_append_blank _ hm, hread, readFormB, readByte_of_writesByte hx ht]
  simp [lastPart, ht.atLineEnd, expandLine]

theorem assembleLine_formT {c d : Char} {l : Tag → AsmLine} (hread : ∀ rest, readOperands m rest = readFormT l rest)
    (h : stringLiteral [c, d] = true) (hline : line = m ++ ' ' :: (quoted [c, d] ++ tail)) :
    assembleLine line = some ((expandLine (l (byteOfChar c ++ byteOfChar d))).map encode) := by
  rw [hline, assembleLine_append_blank _ hm, hread, readFormT, readTag_quoted h (r := tail) (by simp)]
  simp [lastPart, ht.atLineEnd]

theorem assembleLine_formS {v : List Char} {l : List Byte → AsmLine}
    (hread : ∀ rest, readOperands m rest = readFormS l rest) (h : stringLiteral v = true)
    (hline : line = m ++ ' ' :: (quoted v ++ tail)) :
    assembleLine line = some ((expandLine (l (v.map byteOfChar))).map encode) := by
  rw [hline, assembleLine_append_blank _ hm, hread, readFormS, readBytes_quoted h (r := tail) (by simp)]
  simp [lastPart, ht.atLineEnd]

end

/-! ## FIELD and COMPOSITE -/

theorem expectChar_comma (cs : List Char) : expectChar ',' (',' :: cs) = some cs := rfl

theorem expectChar_open (cs : List Char) : expectChar '(' ('(' :: cs) = some cs := rfl

theorem expectChar_close (cs : List Char) : expectChar ')' (')' :: cs) = some cs := rfl

theorem readField_written {c d : Char} {v tail : List Char} (ht : stringLiteral [c, d] = true)
    (hv : stringLiteral v = true) (h : LineTail tail) :
    readField (' ' :: (quoted [c, d] ++ ',' :: ' ' :: (quoted v ++ tail))) =
      some (.field (byteOfChar c ++ byteOfChar d) (v.map byteOfChar)) := by
  rw [readField, readTag_quoted ht ((skipBlanks_blank _).trans (skipBlanks_quoted _ _))]
  simp [expectChar_comma, readBytes_quoted hv (r := tail), lastPart, h.atLineEnd]

theorem assembleLine_field {c d : Char} {v tail : List Char} (ht : stringLiteral [c, d] = true)
    (hv : stringLiteral v = true) (h : LineTail tail) :
    assembleLine ("FIELD".toList ++ ' ' :: (quoted [c, d] ++ ',' :: ' ' :: (quoted v ++ tail))) =
      some ((expandField (byteOfChar c ++ byteOfChar d) (v.map byteOfChar)).map encode) := by
  rw [assembleLine_append_blank _ (by decide), readOperands_field, readField_written ht hv h]
  rfl

/-- A sub-field of COMPOSITE in the plain layout, with the comma before it. -/
def subfieldText (p : (Char × Char) × List Char) : List Char :=
  [',', ' ', '('] ++ quoted [p.1.1, p.1.2] ++ [','] ++ quoted p.2 ++ [')']

/-- The sub-field that the text stands for. -/
def subfieldOf (p : (Char × Char) × List Char) : Tag × List Byte :=
  (byteOfChar p.1.1 ++ byteOfChar p.1.2, p.2.map byteOfChar)

/-- The layout of a sub-field in front of what follows it, part by part. -/
theorem subfieldText_append (p : (Char × Char) × List Char) (rest : List Char) :
    subfieldText p ++ rest =
      ',' :: ' ' :: '(' :: (quoted [p.1.1, p.1.2] ++ ',' :: (quoted p.2 ++ ')' :: rest)) := by
  simp [subfieldText]

/-- One more sub-field, read off the front. -/
theorem readSubfields_subfieldText {p : (Char × Char) × List Char} (fuel : Nat) (rest : List Char)
    (ht : stringLiteral [p.1.1, p.1.2] = true) (hv : stringLiteral p.2 = true) :
    readSubfields (fuel + 1) (subfieldText p ++ rest) = (readSubfields fuel rest).map (subfieldOf p :: ·) := by
  have htag := readTag_quoted (r := ',' :: (quoted p.2 ++ ')' :: rest)) ht (skipBlanks_quoted _ _)
  have hvalue := readBytes_quoted (r := ')' :: rest) hv (skipBlanks_quoted _ _)
  rw [subfieldText_append, readSubfields, if_neg (by rintro ⟨⟩)]
  simp only [expectChar_comma, expectChar_blank, expectChar_open, expectChar_close, htag, hvalue, Option.bind_eq_bind,
    Option.bind_some]
  cases readSubfields fuel rest <;> rfl

theorem readSubfields_written {subs : List ((Char × Char) × List Char)} {tail : List Char} {fuel : Nat}
    (hs : ∀ p ∈ subs, stringLiteral [p.1.1, p.1.2] = true ∧ stringLiteral p.2 = true) (h : LineTail tail)
    (hfuel : subs.length ≤ fuel) :
    readSubfields fuel (subs.flatMap subfieldText ++ tail) = some (subs.map subfieldOf) := by
  induction subs generalizing fuel with
  | nil => cases fuel <;> exact if_pos h.atLineEnd
  | cons p subs ih =>
    obtain ⟨fuel, rfl⟩ := Nat.exists_eq_add_of_le' (Nat.one_le_of_lt hfuel)
    obtain ⟨ht, hv⟩ := hs p (by simp)
    rw [List.flatMap_cons, List.append_assoc, readSubfields_subfieldText fuel _ ht hv,
      ih (fun q hq => hs q (by simp [hq])) (by simpa using hfuel)]
    rfl

/-- A sub-field takes at least one character, so the length of the line bounds their number. -/
theorem length_le_length_flatMap_subfieldText (subs : List ((Char × Char) × List Char)) :
    subs.length ≤ (subs.flatMap subfieldText).length := by
  induction subs with
  | nil => simp
  | cons p subs ih =>
    rw [List.flatMap_cons, subfieldText_append]
    simp only [List.length_cons, List.length_append]
    omega

theorem readComposite_written {c d : Char} {subs : List ((Char × Char) × List Char)} {tail : List Char}
    (ht : stringLiteral [c, d] = true)
    (hs : ∀ p ∈ subs, stringLiteral [p.1.1, p.1.2] = true ∧ stringLiteral p.2 = true) (h : LineTail tail) :
    readComposite (' ' :: (quoted [c, d] ++ (subs.flatMap subfieldText ++ tail))) =
      some (.composite (byteOfChar c ++ byteOfChar d) (subs.map subfieldOf)) := by
  have hfuel : subs.length ≤ (subs.flatMap subfieldText ++ tail).length := by
    have := length_le_length_flatMap_subfieldText subs
    rw [List.length_append]
    omega
  rw [readComposite, readTag_quoted ht ((skipBlanks_blank _).trans (skipBlanks_quoted _ _))]
  simp only [Option.bind_eq_bind, Option.bind_some, readSubfields_written hs h hfuel, Option.map_some]

theorem assembleLine_composite {c d : Char} {subs : List ((Char × Char) × List Char)} {tail : List Char}
    (ht : stringLiteral [c, d] = true)
    (hs : ∀ p ∈ subs, stringLiteral [p.1.1, p.1.2] = true ∧ stringLiteral p.2 = true) (h : LineTail tail) :
    assembleLine ("COMPOSITE".toList ++ ' ' :: (quoted [c, d] ++ (subs.flatMap subfieldText ++ tail))) =
      some ((expandComposite (byteOfChar c ++ byteOfChar d) (subs.map subfieldOf)).map encode) := by
  rw [assembleLine_append_blank _ (by decide), readOperands_composite, readComposite_written ht hs h]
  rfl

/-! ## The plain layout -/

theorem expandChecksum_append (a b : Byte) :
    expandChecksum (a ++ b) = [.outByte a, .outByte b, .outByte 0x30, .outByte 0x34, .crcEmit] := by
  have hfirst : tagFirst (a ++ b) = a := BitVec.extractLsb'_append_eq_left
  have hsecond : tagSecond (a ++ b) = b := BitVec.extractLsb'_append_eq_right
  rw [expandChecksum, hfirst, hsecond]

/-- Settles O53: one reader for each form of line. -/
theorem writtenLinesAssemble : Obligations.WrittenLinesAssemble := by
  intro line is hline tail ht
  replace ht : LineTail tail := ht
  cases hline with
  | nop => exact assembleLine_formN (by decide) ht readOperands_nop
  | clear => exact assembleLine_formN (by decide) ht readOperands_clear
  | crcInit => exact assembleLine_formN (by decide) ht readOperands_crcInit
  | crcByte hx => exact assembleLine_formB (by decide) ht readOperands_crcByte hx (by simp)
  | crcEmit => exact assembleLine_formN (by decide) ht readOperands_crcEmit
  | fldOpen c d h => exact assembleLine_formT (by decide) ht readOperands_fldOpen h (by simp)
  | fldByte hx => exact assembleLine_formB (by decide) ht readOperands_fldByte hx (by simp)
  | fldClose => exact assembleLine_formN (by decide) ht readOperands_fldClose
  | cmpOpen c d h => exact assembleLine_formT (by decide) ht readOperands_cmpOpen h (by simp)
  | cmpClose => exact assembleLine_formN (by decide) ht readOperands_cmpClose
  | outByte hx => exact assembleLine_formB (by decide) ht readOperands_outByte hx (by simp)
  | field c d v htag hv =>
    have hshape : "FIELD ".toList ++ quoted [c, d] ++ ", ".toList ++ quoted v ++ tail =
        "FIELD".toList ++ ' ' :: (quoted [c, d] ++ ',' :: ' ' :: (quoted v ++ tail)) := by simp
    rw [hshape, assembleLine_field htag hv ht]
    simp [expandField, Function.comp_def]
  | composite c d subs htag hs =>
    have hshape : "COMPOSITE ".toList ++ quoted [c, d] ++ subs.flatMap subfieldText ++ tail =
        "COMPOSITE".toList ++ ' ' :: (quoted [c, d] ++ (subs.flatMap subfieldText ++ tail)) := by simp
    refine (congrArg assembleLine hshape).trans ((assembleLine_composite htag hs ht).trans ?_)
    simp [expandComposite, expandField, subfieldOf, List.flatMap_map, Function.comp_def]
  | out v hv =>
    rw [assembleLine_formS (by decide) ht readOperands_out hv (by simp)]
    simp [expandLine, Function.comp_def]
  | crcstr v hv =>
    rw [assembleLine_formS (by decide) ht readOperands_crcstr hv (by simp)]
    simp [expandLine, Function.comp_def]
  | checksum c d h =>
    rw [← expandChecksum_append]
    exact assembleLine_formT (by decide) ht readOperands_checksum h (by simp)

/-! ## What the assembler refuses -/

/-- A line whose operands its mnemonic does not read is refused. -/
theorem assembleLine_eq_none {line m rest : List Char} (hm : m ≠ [] ∧ m.all mnemonicChar = true)
    (hline : line = m ++ ' ' :: rest) (h : readOperands m (' ' :: rest) = none) : assembleLine line = none := by
  rw [hline, assembleLine_append_blank _ hm, h]
  rfl

theorem readFormB_eq_none {i : Byte → Instr} {rest : List Char} (h : readByte rest = none) :
    readFormB i rest = none := by
  simp [readFormB, lastPart, h]

theorem readFormT_eq_none {l : Tag → AsmLine} {rest : List Char} (h : readTag rest = none) :
    readFormT l rest = none := by
  simp [readFormT, lastPart, h]

theorem readFormS_eq_none {l : List Byte → AsmLine} {rest : List Char} (h : readBytes rest = none) :
    readFormS l rest = none := by
  simp [readFormS, lastPart, h]

/-- A form N mnemonic takes nothing but blanks and a comment. -/
theorem readFormN_eq_none {i : Instr} {c : Char} {rest : List Char} (h1 : c ≠ ' ') (h2 : c ≠ '\t') (h3 : c ≠ ';') :
    readFormN i (' ' :: c :: rest) = none := by
  simp [readFormN, atLineEnd, skipBlanks, h1, h2, h3]

/-- A decimal operand above 255 is refused. -/
theorem readByte_eq_none_of_gt {n : Nat} (h : 255 < n) : readByte (' ' :: Nat.toDigits 10 n) = none := by
  have hread := readByte_toDigits n lineTail_nil
  rwa [List.append_nil, if_neg (by simpa [byteNumber] using h)] at hread

/-- A quoted text without double quotes is read whole, if it is a string literal. -/
theorem readString_blank_quoted {cs : List Char} (h : ∀ c ∈ cs, c.toNat ≠ 0x22) :
    readString (' ' :: quoted cs) = if stringLiteral cs then some (cs, []) else none :=
  readString_quoted h (by simpa using skipBlanks_quoted cs [])

theorem tagOfChars_eq_none {cs : List Char} (h : cs.length ≠ 2) : tagOfChars cs = none := by
  unfold tagOfChars
  split
  next => simp at h
  next => rfl

/-- A tag literal that is not two characters is refused. -/
theorem readTag_eq_none_of_length {cs : List Char} (h : ∀ c ∈ cs, c.toNat ≠ 0x22) (hlen : cs.length ≠ 2) :
    readTag (' ' :: quoted cs) = none := by
  rw [readTag, readString_blank_quoted h]
  split
  next => simp [tagOfChars_eq_none hlen]
  next => rfl

theorem stringLiteral_eq_false {cs : List Char} (h : ∃ c ∈ cs, c.toNat < 0x20 ∨ 0x7E < c.toNat) :
    stringLiteral cs = false := by
  obtain ⟨c, hc, hout⟩ := h
  refine List.all_eq_false.mpr ⟨c, hc, ?_⟩
  simp only [literalChar, Bool.and_eq_true, decide_eq_true_eq]
  omega

/-- A literal with a character outside 0x20 to 0x7E is refused. -/
theorem readString_eq_none {cs : List Char} (h : ∀ c ∈ cs, c.toNat ≠ 0x22)
    (hout : ∃ c ∈ cs, c.toNat < 0x20 ∨ 0x7E < c.toNat) : readString (' ' :: quoted cs) = none := by
  rw [readString_blank_quoted h, stringLiteral_eq_false hout]
  rfl

theorem readTag_eq_none {cs : List Char} (h : readString cs = none) : readTag cs = none := by simp [readTag, h]

theorem readBytes_eq_none {cs : List Char} (h : readString cs = none) : readBytes cs = none := by simp [readBytes, h]

/-- A word in mnemonic characters that is no mnemonic is refused, whatever follows it. -/
theorem assembleLine_of_not_mem {m rest : List Char} (hne : m ≠ []) (hall : m.all mnemonicChar = true)
    (hm : m ∉ mnemonics) : assembleLine (m ++ ' ' :: rest) = none := by
  rw [assembleLine_append_blank _ ⟨hne, hall⟩, readOperands_of_not_mem _ hm]
  rfl

/-- A line that begins with a lower-case letter has no mnemonic. -/
theorem assembleLine_of_lowerCase {c : Char} (rest : List Char) (h1 : 0x61 ≤ c.toNat) (h2 : c.toNat ≤ 0x7A) :
    assembleLine (c :: rest) = none := by
  have hne {d : Char} (hd : d.toNat < 0x61) : c ≠ d := by
    rintro rfl
    omega
  have hskip : skipBlanks (c :: rest) = c :: rest := by
    simp [skipBlanks, hne (d := ' ') (by decide), hne (d := '\t') (by decide)]
  have hend : atLineEnd (c :: rest) = false := by
    simp [atLineEnd, hskip, hne (d := ';') (by decide)]
  have hchar : mnemonicChar c = false := by
    simp only [mnemonicChar, beq_eq_false_iff_ne.mpr (hne (d := '.') (by decide)), Bool.or_false,
      Bool.and_eq_false_iff, decide_eq_false_iff_not]
    omega
  have hread : readLine (c :: rest) = readOperands [] (c :: rest) := by
    simp [readLine, hend, hskip, hchar]
  rw [assembleLine, hread, readOperands_of_not_mem _ (by decide)]
  rfl

/-- Settles O54: the operand's reader refuses, whichever mnemonic asks for it. -/
theorem assemblerRefusesIllFormedLines : Obligations.AssemblerRefusesIllFormedLines := by
  refine ⟨?_, ?_, ?_, ?_, fun m rest hne hall hm => assembleLine_of_not_mem hne hall hm,
    fun c rest => assembleLine_of_lowerCase rest⟩
  · intro m hm n hn
    have hread := readByte_eq_none_of_gt hn
    simp only [List.mem_cons, List.not_mem_nil, or_false] at hm
    obtain rfl | rfl | rfl := hm
    · exact assembleLine_eq_none (by decide) (by simp) ((readOperands_crcByte _).trans (readFormB_eq_none hread))
    · exact assembleLine_eq_none (by decide) (by simp) ((readOperands_fldByte _).trans (readFormB_eq_none hread))
    · exact assembleLine_eq_none (by decide) (by simp) ((readOperands_outByte _).trans (readFormB_eq_none hread))
  · intro m hm cs hq hlen
    have hread := readTag_eq_none_of_length hq hlen
    simp only [List.mem_cons, List.not_mem_nil, or_false] at hm
    obtain rfl | rfl | rfl := hm
    · exact assembleLine_eq_none (by decide) (by simp) ((readOperands_fldOpen _).trans (readFormT_eq_none hread))
    · exact assembleLine_eq_none (by decide) (by simp) ((readOperands_cmpOpen _).trans (readFormT_eq_none hread))
    · exact assembleLine_eq_none (by decide) (by simp) ((readOperands_checksum _).trans (readFormT_eq_none hread))
  · intro m hm cs hq hout
    have hstring := readString_eq_none hq hout
    have htag := readTag_eq_none hstring
    have hbytes := readBytes_eq_none hstring
    simp only [List.mem_cons, List.not_mem_nil, or_false] at hm
    obtain rfl | rfl | rfl | rfl | rfl := hm
    · exact assembleLine_eq_none (by decide) (by simp) ((readOperands_fldOpen _).trans (readFormT_eq_none htag))
    · exact assembleLine_eq_none (by decide) (by simp) ((readOperands_cmpOpen _).trans (readFormT_eq_none htag))
    · exact assembleLine_eq_none (by decide) (by simp) ((readOperands_checksum _).trans (readFormT_eq_none htag))
    · exact assembleLine_eq_none (by decide) (by simp) ((readOperands_out _).trans (readFormS_eq_none hbytes))
    · exact assembleLine_eq_none (by decide) (by simp) ((readOperands_crcstr _).trans (readFormS_eq_none hbytes))
  · intro m hm c rest h1 h2 h3
    have hread {i : Instr} := readFormN_eq_none (i := i) (rest := rest) h1 h2 h3
    simp only [List.mem_cons, List.not_mem_nil, or_false] at hm
    obtain rfl | rfl | rfl | rfl | rfl | rfl := hm
    · exact assembleLine_eq_none (by decide) (by simp) ((readOperands_nop _).trans hread)
    · exact assembleLine_eq_none (by decide) (by simp) ((readOperands_clear _).trans hread)
    · exact assembleLine_eq_none (by decide) (by simp) ((readOperands_crcInit _).trans hread)
    · exact assembleLine_eq_none (by decide) (by simp) ((readOperands_crcEmit _).trans hread)
    · exact assembleLine_eq_none (by decide) (by simp) ((readOperands_fldClose _).trans hread)
    · exact assembleLine_eq_none (by decide) (by simp) ((readOperands_cmpClose _).trans hread)

/-! ## A text, line by line -/

theorem splitLines_of_not_mem {l : List Char} (h : '\n' ∉ l) : splitLines l = [l] := by
  induction l with
  | nil => rfl
  | cons c l ih =>
    simp only [List.mem_cons, not_or] at h
    rw [splitLines, if_neg (Ne.symm h.1), ih h.2]

/-- Splitting undoes joining, for lines that hold no line feed. -/
theorem splitLines_intercalate {lines : List (List Char)} (hne : lines ≠ []) (h : ∀ l ∈ lines, '\n' ∉ l) :
    splitLines (['\n'].intercalate lines) = lines := by
  induction lines with
  | nil => exact absurd rfl hne
  | cons l ls ih =>
    cases ls with
    | nil => rw [List.intercalate_singleton, splitLines_of_not_mem (h l (by simp))]
    | cons l' ls =>
      rw [List.intercalate_cons_cons, List.append_assoc, List.singleton_append, splitLines_append _ _ (h l (by simp)),
        ih (by simp) fun m hm => h m (List.mem_cons_of_mem l hm)]

/-- Every word of a line that is accepted is the word of a command. -/
theorem exists_decode_of_mem_assembleLine {l : List Char} {ws : List Word} (h : assembleLine l = some ws) :
    ∀ w ∈ ws, ∃ i, decode w = .ok i := by
  obtain ⟨line, -, rfl⟩ := Option.map_eq_some_iff.mp h
  intro w hw
  obtain ⟨i, -, rfl⟩ := List.mem_map.mp hw
  exact ⟨i, decodeInvertsEncode i⟩

theorem exists_decode_of_mem_mapM {lines : List (List Char)} {wss : List (List Word)}
    (h : lines.mapM assembleLine = some wss) : ∀ w ∈ wss.flatten, ∃ i, decode w = .ok i := by
  induction lines generalizing wss with
  | nil =>
    cases h
    simp
  | cons l ls ih =>
    simp only [List.mapM_cons, Option.bind_eq_bind, Option.bind_eq_some_iff, Option.pure_def, Option.some.injEq] at h
    obtain ⟨ws, hws, more, hmore, rfl⟩ := h
    intro w hw
    obtain hw | hw := List.mem_append.mp (List.flatten_cons ▸ hw)
    · exact exists_decode_of_mem_assembleLine hws w hw
    · exact ih hmore w hw

/-- Settles O55: splitting undoes joining, and every line's words are words of commands. -/
theorem textAssemblesLineByLine : Obligations.TextAssemblesLineByLine := by
  refine ⟨fun lines hne h => ?_, fun text ws h => ?_⟩
  · rw [assemble, splitLines_intercalate hne h]
  · obtain ⟨wss, hwss, rfl⟩ := Option.map_eq_some_iff.mp h
    exact exists_decode_of_mem_mapM hwss

end Sys2Proof.Machine
end

section
/-! The CRC engine (40_crc.md): the update over exclusive OR and its table-driven form, the hexadecimal rendering, the
effect of each CRC command, and the register along a sequence of commands. -/

namespace Sys2Proof.Machine

/-! ## The update -/

/-- One shift is linear: where a 1 leaves both operands, the two polynomials cancel. -/
theorem crcShift_xor (q r : Crc) : crcShift (q ^^^ r) = crcShift q ^^^ crcShift r := by
  have hcancel : q <<< 1 ^^^ r <<< 1 = (q <<< 1 ^^^ Config.crcPoly) ^^^ (r <<< 1 ^^^ Config.crcPoly) :=
    calc q <<< 1 ^^^ r <<< 1
      _ = (q <<< 1 ^^^ r <<< 1) ^^^ (Config.crcPoly ^^^ Config.crcPoly) := by rw [BitVec.xor_self, BitVec.xor_zero]
      _ = (q <<< 1 ^^^ Config.crcPoly) ^^^ (r <<< 1 ^^^ Config.crcPoly) := by ac_rfl
  unfold crcShift
  rw [BitVec.msb_xor, BitVec.shiftLeft_xor_distrib]
  cases q.msb <;> cases r.msb
  · rfl
  · exact BitVec.xor_assoc _ _ _
  · simp only [Bool.xor_false, if_true, Bool.false_eq_true, if_false]
    ac_rfl
  · exact hcancel

theorem crcShifts_xor (k : Nat) (q r : Crc) : crcShifts k (q ^^^ r) = crcShifts k q ^^^ crcShifts k r := by
  induction k generalizing q r with
  | zero => rfl
  | succ k ih => rw [crcShifts, crcShift_xor, ih]; rfl

/-- While only zeros leave position 15 the polynomial plays no part. -/
theorem crcShifts_eq_shiftLeft {k : Nat} {r : Crc} (h : ∀ j < k, r.getMsbD j = false) : crcShifts k r = r <<< k := by
  induction k generalizing r with
  | zero => exact (BitVec.shiftLeft_zero r).symm
  | succ k ih =>
    have hshift : crcShift r = r <<< 1 := if_neg (by simpa [BitVec.msb] using h 0 (by omega))
    have hnext : ∀ j < k, (r <<< 1).getMsbD j = false := fun j hj => by
      rw [BitVec.getMsbD_shiftLeft]
      exact h (j + 1) (by omega)
    rw [crcShifts, hshift, ih hnext, ← BitVec.shiftLeft_add, Nat.add_comm]

/-- A byte in the low half moves up whole: eight shifts bring only zeros to position 15. -/
theorem crcShifts_lowByte (b : Byte) : crcShifts 8 (b.setWidth 16) = b.setWidth 16 <<< 8 := by
  refine crcShifts_eq_shiftLeft fun j hj => ?_
  rw [BitVec.getMsbD_setWidth]
  simp [show ¬ 8 ≤ j by omega]

/-- A register is its high byte in bits 15:8 and its low byte below. -/
theorem crc_eq_high_xor_low (c : Crc) :
    ((c >>> 8).setWidth 8).setWidth 16 <<< 8 ^^^ (c.setWidth 8).setWidth 16 = c := by
  refine BitVec.eq_of_getLsbD_eq fun k hk => ?_
  interval_cases k <;> simp

/-- Eight places up, the low byte is all that is left of a register. -/
theorem lowByte_shiftLeft_eight (c : Crc) : (c.setWidth 8).setWidth 16 <<< 8 = c <<< 8 := by
  refine BitVec.eq_of_getLsbD_eq fun k hk => ?_
  interval_cases k <;> simp

/-- A byte in bits 15:8 enters the shifts where the operand does, and the rest of the register is shifted apart. -/
theorem crcStep_high (a b : Byte) (r : Crc) :
    crcStep (a.setWidth 16 <<< 8 ^^^ r) b = crcStep 0 (a ^^^ b) ^^^ crcShifts 8 r := by
  have hinput : (a.setWidth 16 <<< 8 ^^^ r) ^^^ b.setWidth 16 <<< 8 =
      (0#16 ^^^ (a ^^^ b).setWidth 16 <<< 8) ^^^ r := by
    rw [BitVec.zero_xor, BitVec.setWidth_xor, BitVec.shiftLeft_xor_distrib]
    ac_rfl
  rw [crcStep, hinput, crcShifts_xor]
  rfl

/-- Settles O14: the byte enters the register by exclusive OR, and every shift is linear. -/
theorem crcStepLinear : Obligations.CrcStepLinear := by
  intro c d a b
  have hinput : (c ^^^ d) ^^^ (a ^^^ b).setWidth 16 <<< 8 =
      (c ^^^ a.setWidth 16 <<< 8) ^^^ (d ^^^ b.setWidth 16 <<< 8) := by
    rw [BitVec.setWidth_xor, BitVec.shiftLeft_xor_distrib]
    ac_rfl
  rw [crcStep, hinput, crcShifts_xor]
  rfl

/-- Settles O13: the high byte meets the operand in the table's index, and eight shifts only move the low byte up. -/
theorem crcStepTableDriven : Obligations.CrcStepTableDriven := by
  intro c b
  calc crcStep c b
    _ = crcStep (((c >>> 8).setWidth 8).setWidth 16 <<< 8 ^^^ (c.setWidth 8).setWidth 16) b := by
      rw [crc_eq_high_xor_low]
    _ = crcStep 0 ((c >>> 8).setWidth 8 ^^^ b) ^^^ (c.setWidth 8).setWidth 16 <<< 8 := by
      rw [crcStep_high, crcShifts_lowByte]
    _ = (c <<< 8) ^^^ crcStep 0 ((c >>> 8).setWidth 8 ^^^ b) := by
      rw [lowByte_shiftLeft_eight, BitVec.xor_comm]

/-! ## The rendering -/

theorem hexChar_range (n : BitVec 4) :
    (0x30 ≤ (hexChar n).toNat ∧ (hexChar n).toNat ≤ 0x39) ∨ (0x41 ≤ (hexChar n).toNat ∧ (hexChar n).toNat ≤ 0x46) := by
  have hn : n.toNat < 16 := n.isLt
  unfold hexChar
  split
  · left
    rw [BitVec.toNat_ofNat]
    omega
  · right
    rw [BitVec.toNat_ofNat]
    omega

/-- The assembler's reader of hexadecimal digits undoes `HexChar`. -/
theorem hexChar_injective {m n : BitVec 4} (h : hexChar m = hexChar n) : m = n := by
  have hread : some m.toNat = some n.toNat := by rw [← hexDigit_hexChar m, h, hexDigit_hexChar]
  exact BitVec.eq_of_toNat_eq (Option.some.inj hread)

/-- The four nibbles of a register determine it. -/
theorem crc_eq_of_nibbles_eq {c d : Crc} (h3 : c.extractLsb' 12 4 = d.extractLsb' 12 4)
    (h2 : c.extractLsb' 8 4 = d.extractLsb' 8 4) (h1 : c.extractLsb' 4 4 = d.extractLsb' 4 4)
    (h0 : c.extractLsb' 0 4 = d.extractLsb' 0 4) : c = d := by
  refine BitVec.eq_of_toNat_eq ?_
  have hc := c.isLt
  have hd := d.isLt
  simp only [← BitVec.toNat_inj, BitVec.extractLsb'_toNat, Nat.shiftRight_eq_div_pow] at h0 h1 h2 h3
  omega

theorem hex_injective {c d : Crc} (h : hex c = hex d) : c = d := by
  simp only [hex, List.cons.injEq, and_true] at h
  obtain ⟨h3, h2, h1, h0⟩ := h
  exact crc_eq_of_nibbles_eq (hexChar_injective h3) (hexChar_injective h2) (hexChar_injective h1) (hexChar_injective h0)

/-- Every character of a rendering is a nibble's. -/
theorem exists_hexChar_of_mem_hex {c : Crc} {x : Byte} (h : x ∈ hex c) : ∃ n, x = hexChar n := by
  simp only [hex, List.mem_cons, List.not_mem_nil, or_false] at h
  obtain rfl | rfl | rfl | rfl := h <;> exact ⟨_, rfl⟩

/-- Settles O16: the characters are those of the nibbles, which they determine. -/
theorem hexUppercaseAndInjective : Obligations.HexUppercaseAndInjective := by
  refine ⟨fun c => ⟨length_hex c, fun x hx => ?_⟩, fun c d => hex_injective⟩
  obtain ⟨n, rfl⟩ := exists_hexChar_of_mem_hex hx
  exact hexChar_range n

/-! ## Strings -/

theorem crc16_append (s e : List Byte) : crc16 (s ++ e) = crcFeed (crc16 s) e := crcFeed_append _ s e

/-- The register after each character of 123456789, from 0xFFFF on. -/
theorem crcStep_checkString :
    crcStep 0xFFFF 0x31 = 0xC782 ∧ crcStep 0xC782 0x32 = 0x3DBA ∧ crcStep 0x3DBA 0x33 = 0x5BCE ∧
    crcStep 0x5BCE 0x34 = 0x5349 ∧ crcStep 0x5349 0x35 = 0x4560 ∧ crcStep 0x4560 0x36 = 0x2EF4 ∧
    crcStep 0x2EF4 0x37 = 0x7718 ∧ crcStep 0x7718 0x38 = 0xA12B ∧ crcStep 0xA12B 0x39 = 0x29B1 := by decide

theorem crc16_checkString : crc16 [0x31, 0x32, 0x33, 0x34, 0x35, 0x36, 0x37, 0x38, 0x39] = 0x29B1 := by
  simp only [crc16, Config.crcInit, crcFeed_cons, crcFeed_nil, crcStep_checkString]

/-- Settles O15: the fold's equations, and the check value. -/
theorem crcOfString : Obligations.CrcOfString :=
  ⟨rfl, fun s b => crc16_append s [b], by rw [crc16_checkString]; rfl⟩

/-! ## The CRC commands -/

/-- A command none of whose causes holds performs its rule. -/
theorem exec_of_no_cause {i : Instr} {s : State} (hi : i ≠ .clear) (hf : s.fault = false)
    (hc : firstCause i s = none) : exec i s = .next (accepted i s) := by
  rw [exec_eq_performed s hi, State.unlessFaulted_of_no_fault _ hf, performed_of_no_cause hc]

/-- Settles O10: CRC.INIT has no cause. -/
theorem crcInitExecutes : Obligations.CrcInitExecutes := fun _ hf =>
  exec_of_no_cause (by simp) hf rfl

/-- Settles O11: CRC.BYTE has no cause, in particular none about an open field or composite. -/
theorem crcByteExecutes : Obligations.CrcByteExecutes := fun _ _ hf =>
  exec_of_no_cause (by simp) hf rfl

/-- Settles O12: CRC.EMIT is accepted, and its rule writes the rendering at the count. -/
theorem crcEmitExecutes : Obligations.CrcEmitExecutes := by
  intro s hf ho hc hfit hw
  refine ⟨_, exec_of_no_cause (by simp) hf ((firstCause_crcEmit_eq_none s).mpr ⟨ho, hc, hfit⟩), ?_, ?_⟩
  · simp [accepted, State.emitRawAll_eq]
  · intro a
    rw [accepted, State.emitRawAll_eq]
    exact Memory.read_writeAll s.olen (hex s.crc) a hw

/-! ## The register along a sequence of commands -/

theorem fedBytes_of_fault (i : Instr) {s : State} (h : s.fault = true) : fedBytes i s = [] := by simp [fedBytes, h]

theorem fedBytes_of_cause {i : Instr} {s : State} {c : FaultCode} (h : firstCause i s = some c) :
    fedBytes i s = [] := by
  simp [fedBytes, h]

/-- An accepted command feeds the bytes its rule sends through the CRC tap. -/
theorem crc_accepted {i : Instr} {s : State} (hf : s.fault = false) (hc : firstCause i s = none) (hclear : i ≠ .clear)
    (hinit : i ≠ .crcInit) : (accepted i s).crc = crcFeed s.crc (fedBytes i s) := by
  cases i with
  | clear => exact absurd rfl hclear
  | crcInit => exact absurd rfl hinit
  | fldClose =>
    cases hco : s.copen with
    | true => simp [accepted, fedBytes, hf, hc, hco, State.cbufAppendAll_eq]
    | false => simp [accepted, fedBytes, hf, hc, hco, State.emitAll_eq]
  | cmpClose => simp [accepted, fedBytes, hf, hc, State.emitAll_eq]
  | crcEmit => simp [accepted, fedBytes, State.emitRawAll_eq]
  | nop | crcByte b | fldOpen x | fldByte b | cmpOpen x | outByte b => simp [accepted, fedBytes, hf, hc]

/-- Every command but CLEAR and CRC.INIT feeds its bytes to the register, an ignored or faulting one none. -/
theorem crc_exec {i : Instr} {s t : State} (h : exec i s = .next t) (hclear : i ≠ .clear) (hinit : i ≠ .crcInit) :
    t.crc = crcFeed s.crc (fedBytes i s) := by
  obtain ⟨hf, -, rfl⟩ | ⟨c, -, hc, rfl⟩ | ⟨hf, hc, rfl⟩ := exec_cases h
  · rw [fedBytes_of_fault i hf, crcFeed_nil]
  · rw [fedBytes_of_cause hc, crcFeed_nil, State.raise_crc]
  · exact crc_accepted (hf.resolve_right hclear) hc hclear hinit

theorem fedBytesAll_cons (i : Instr) (is : List Instr) (s : State) :
    fedBytesAll (i :: is) s = fedBytes i s ++ fedBytesAll is (afterExec i s) := by
  simp [fedBytesAll, exec_eq_next]

/-- Settles O45, by induction on the sequence. -/
theorem crcIsFoldOfFedBytes : Obligations.CrcIsFoldOfFedBytes := by
  intro is
  induction is with
  | nil => exact fun s _ => ⟨s, rfl, rfl⟩
  | cons i is ih =>
    intro s h
    obtain ⟨⟨hclear, hinit⟩, hrest⟩ := List.forall_mem_cons.mp h
    obtain ⟨t, ht, hcrc⟩ := ih (afterExec i s) hrest
    refine ⟨t, (execAll_cons i is s).trans ht, ?_⟩
    rw [hcrc, crc_exec (exec_eq_next i s) hclear hinit, fedBytesAll_cons, crcFeed_append]

/-- Without CRC.EMIT, which emits untapped, and CRC.BYTE, which feeds without emitting, an accepted command emits
exactly the bytes it feeds. -/
theorem emittedBytes_eq_fedBytes {i : Instr} {s : State} (hf : s.fault = false) (hc : firstCause i s = none)
    (hemit : i ≠ .crcEmit) (hbyte : ∀ b, i ≠ .crcByte b) : emittedBytes i s = fedBytes i s := by
  cases i with
  | crcEmit => exact absurd rfl hemit
  | crcByte b => exact absurd rfl (hbyte b)
  | nop | clear | crcInit | fldOpen x | fldByte b | fldClose | cmpOpen x | cmpClose | outByte b =>
    simp [emittedBytes, fedBytes, hf, hc]

/-- What such a command feeds to the register it appends to the output. -/
theorem output_exec {i : Instr} {s t : State} (hw : Memory.wf s.obuf = true) (h : exec i s = .next t)
    (hclear : i ≠ .clear) (hemit : i ≠ .crcEmit) (hbyte : ∀ b, i ≠ .crcByte b) :
    t.output = s.output ++ fedBytes i s := by
  obtain ⟨hf, -, rfl⟩ | ⟨c, -, hc, rfl⟩ | ⟨hf, hc, rfl⟩ := exec_cases h
  · rw [fedBytes_of_fault i hf, List.append_nil]
  · rw [fedBytes_of_cause hc, List.append_nil, State.raise_output]
  · rw [output_accepted hw hclear, emittedBytes_eq_fedBytes (hf.resolve_right hclear) hc hemit hbyte]

/-- One command keeps the register the checksum of the output: CLEAR makes it that of the empty output, every other
command feeds what it appends. -/
theorem crc_eq_crc16_output_exec {i : Instr} {s t : State} (hw : Memory.wf s.obuf = true)
    (hcrc : s.crc = crc16 s.output) (h : exec i s = .next t) (hinit : i ≠ .crcInit)
    (hemit : i ≠ .crcEmit) (hbyte : ∀ b, i ≠ .crcByte b) : t.crc = crc16 t.output := by
  by_cases hclear : i = .clear
  · subst hclear
    cases h
    rfl
  · rw [crc_exec h hclear hinit, output_exec hw h hclear hemit hbyte, crc16_append, hcrc]

/-- Settles O46, by induction on the sequence. -/
theorem crcCoversOutput : Obligations.CrcCoversOutput := by
  intro is
  induction is with
  | nil => exact fun s hinv hcrc _ => ⟨s, rfl, hinv, hcrc⟩
  | cons i is ih =>
    intro s hinv hcrc h
    obtain ⟨⟨hinit, hemit, hbyte⟩, hrest⟩ := List.forall_mem_cons.mp h
    have hexec := exec_eq_next i s
    have hcrc' := crc_eq_crc16_output_exec hinv.obuf_wf hcrc hexec hinit hemit hbyte
    rw [execAll_cons]
    exact ih (afterExec i s) (hinv.exec hexec) hcrc' hrest

end Sys2Proof.Machine
end

section
/-! The TLV field encoder (41_tlv.md): the length's two digits, the effect of each of its commands, and the sequences of
FIELD and COMPOSITE up to the first fault. -/

namespace Sys2Proof.Machine

/-! ## The length -/

theorem toNat_decimalDigit {d : Nat} (h : d ≤ 9) : (BitVec.ofNat 8 (0x30 + d)).toNat = 0x30 + d := by
  rw [BitVec.toNat_ofNat]
  omega

theorem isDigit_decimalDigit {d : Nat} (h : d ≤ 9) : isDigit (BitVec.ofNat 8 (0x30 + d)) = true := by
  simp only [isDigit, toNat_decimalDigit h, Bool.and_eq_true, decide_eq_true_eq]
  omega

/-- Settles O17: the tens and the units of a number below 100 are digits. -/
theorem lengthIsTwoDecimalDigits : Obligations.LengthIsTwoDecimalDigits := by
  intro n hn
  have htens : n / 10 ≤ 9 := by omega
  have hunits : n % 10 ≤ 9 := by omega
  refine ⟨_, _, dec2_of_le hn, isDigit_decimalDigit htens, isDigit_decimalDigit hunits, ?_⟩
  rw [toNat_decimalDigit htens, toNat_decimalDigit hunits]
  omega

/-! ## The commands -/

theorem exec_fldOpen {t : Tag} {s : State} (hf : s.fault = false) (ho : s.fopen = false) (ht : isDigitTag t = true) :
    exec (.fldOpen t) s = .next (s.openField t) :=
  exec_of_no_cause (by simp) hf ((firstCause_fldOpen_eq_none t s).mpr ⟨ho, ht⟩)

theorem exec_fldByte {s : State} (b : Byte) (hf : s.fault = false) (ho : s.fopen = true) (hl : s.flen ≠ 99) :
    exec (.fldByte b) s = .next (s.vbufAppend b) :=
  exec_of_no_cause (by simp) hf ((firstCause_fldByte_eq_none b s).mpr ⟨ho, hl⟩)

/-- The hundredth character is refused. -/
theorem exec_fldByte_full {s : State} (b : Byte) (hf : s.fault = false) (ho : s.fopen = true) (hl : s.flen = 99) :
    exec (.fldByte b) s = .next (s.raise .valueTooLong (encode (.fldByte b))) := by
  have hcause : firstCause (.fldByte b) s = some .valueTooLong := by simp [firstCause, causes, firstHolding, ho, hl]
  rw [exec_eq_performed s (by simp), State.unlessFaulted_of_no_fault _ hf, performed_of_cause hcause]

/-- At top level the multiplexer points at the tapped output. -/
theorem exec_fldClose_top {s : State} (hf : s.fault = false) (ho : s.fopen = true) (hc : s.copen = false)
    (hfit : s.olen + s.flen + 4 ≤ Config.outCap) :
    exec .fldClose s = .next (s.emitAll (enc s.ftag s.fieldValue)).closeField := by
  have hcause : firstCause .fldClose s = none := (firstCause_fldClose_eq_none s).mpr ⟨ho, by simp [hc], fun _ => hfit⟩
  rw [exec_of_no_cause (by simp) hf hcause]
  simp [accepted, hc]

/-- In a composite the multiplexer points at the composite buffer. -/
theorem exec_fldClose_composite {s : State} (hf : s.fault = false) (ho : s.fopen = true) (hc : s.copen = true)
    (hfit : s.clen + s.flen + 4 ≤ 99) :
    exec .fldClose s = .next (s.cbufAppendAll (enc s.ftag s.fieldValue)).closeField := by
  have hcause : firstCause .fldClose s = none := (firstCause_fldClose_eq_none s).mpr ⟨ho, fun _ => hfit, by simp [hc]⟩
  rw [exec_of_no_cause (by simp) hf hcause]
  simp [accepted, hc]

/-- Settles O18: the tag is the only thing FLD.OPEN checks besides the open field. -/
theorem fldOpenExecutes : Obligations.FldOpenExecutes := fun _ _ hf ho ht => exec_fldOpen hf ho ht

/-- Settles O19: FLD.BYTE is accepted, and its rule writes one byte at the count. -/
theorem fldByteExecutes : Obligations.FldByteExecutes := fun b s hf ho hl hw =>
  ⟨s.vbufAppend b, exec_fldByte b hf ho hl, rfl, fun a => Memory.read_write s.flen b a hw⟩

/-- Settles O20: FLD.CLOSE at top level is accepted, and its rule writes the encoding at the output's count. -/
theorem fldCloseToOutput : Obligations.FldCloseToOutput := by
  intro s hf ho hc hfit hw
  refine ⟨_, exec_fldClose_top hf ho hc hfit, ?_, fun a => ?_⟩
  · simp [State.emitAll_eq, State.closeField, Nat.add_assoc]
  · rw [State.closeField_obuf, State.emitAll_eq]
    simpa [Nat.add_assoc] using Memory.read_writeAll s.olen (enc s.ftag s.fieldValue) a hw

/-- Settles O21: FLD.CLOSE in a composite is accepted, and its rule writes the encoding at the composite's count. -/
theorem fldCloseToComposite : Obligations.FldCloseToComposite := by
  intro s hf ho hc hfit hw
  refine ⟨_, exec_fldClose_composite hf ho hc hfit, ?_, fun a => ?_⟩
  · simp [State.cbufAppendAll_eq, State.closeField, Nat.add_assoc]
  · rw [State.closeField_cbuf, State.cbufAppendAll_eq]
    simpa [Nat.add_assoc] using Memory.read_writeAll s.clen (enc s.ftag s.fieldValue) a hw

/-! ## Sequences of commands -/

theorem execAll_cons_of_next {i : Instr} {s t : State} (is : List Instr) (h : exec i s = .next t) :
    execAll (i :: is) s = execAll is t := by
  simp [execAll, h]

/-- In the fault state a sequence without CLEAR is ignored (60_exceptions.md R204). -/
theorem execAll_of_fault {is : List Instr} {s : State} (hf : s.fault = true) (h : ∀ i ∈ is, i ≠ .clear) :
    execAll is s = .next s := by
  induction is with
  | nil => rfl
  | cons i is ih =>
    obtain ⟨hi, hrest⟩ := List.forall_mem_cons.mp h
    have hexec : exec i s = .next s := by rw [exec_eq_performed s hi, State.unlessFaulted_of_fault _ hf]
    rw [execAll_cons_of_next is hexec, ih hrest]

/-! ## A value, character by character -/

/-- `vbufAppend` of each character of a value, in order. -/
def State.vbufAppendAll (s : State) (v : List Byte) : State := v.foldl State.vbufAppend s

/-- The characters stand in the value buffer from the count on, and nothing else changes. -/
theorem State.vbufAppendAll_eq (s : State) (v : List Byte) :
    s.vbufAppendAll v = { s with vbuf := Memory.writeAll s.vbuf s.flen v, flen := s.flen + v.length } := by
  induction v generalizing s with
  | nil => rfl
  | cons b v ih =>
    change (s.vbufAppend b).vbufAppendAll v = _
    rw [ih (s.vbufAppend b)]
    simp [State.vbufAppend, Memory.writeAll, Nat.add_assoc, Nat.add_comm 1]

/-- FLD.BYTE of each character of a value that has room. -/
theorem execAll_map_fldByte {v : List Byte} {s : State} (hf : s.fault = false) (ho : s.fopen = true)
    (hfit : s.flen + v.length ≤ 99) : execAll (v.map .fldByte) s = .next (s.vbufAppendAll v) := by
  induction v generalizing s with
  | nil => rfl
  | cons b v ih =>
    rw [List.length_cons] at hfit
    rw [List.map_cons, execAll_cons_of_next _ (exec_fldByte b hf ho (by omega))]
    exact ih (s := s.vbufAppend b) hf ho (by rw [State.vbufAppend_flen]; omega)

/-- A field opened with tag `t` and holding the value `v`, not yet closed. -/
def State.enterField (s : State) (t : Tag) (v : List Byte) : State := (s.openField t).vbufAppendAll v

theorem State.enterField_eq (s : State) (t : Tag) (v : List Byte) :
    s.enterField t v =
      { s with fopen := true, ftag := t, flen := v.length, vbuf := Memory.writeAll s.vbuf 0 v } := by
  simp [State.enterField, State.vbufAppendAll_eq, State.openField]

/-- In a canonical buffer the entered field's value is the one that was written. -/
theorem State.fieldValue_enterField {s : State} (t : Tag) (v : List Byte) (hw : Memory.wf s.vbuf = true) :
    (s.enterField t v).fieldValue = v := by
  rw [State.enterField_eq]
  simpa [State.fieldValue] using Memory.firstBytes_writeAll 0 v hw

/-- FLD.OPEN and the FLD.BYTEs of a value of at most 99 characters enter the field. -/
theorem execAll_enterField {t : Tag} {v : List Byte} {s : State} (hf : s.fault = false) (ho : s.fopen = false)
    (ht : isDigitTag t = true) (hv : v.length ≤ 99) :
    execAll (.fldOpen t :: v.map .fldByte) s = .next (s.enterField t v) := by
  rw [execAll_cons_of_next _ (exec_fldOpen hf ho ht)]
  exact execAll_map_fldByte (s := s.openField t) hf rfl (by simpa using hv)

/-! ## FIELD -/

/-- `FIELD t, v` is FLD.CLOSE on the entered field. -/
theorem execAll_expandField {t : Tag} {v : List Byte} {s : State} (hf : s.fault = false) (ho : s.fopen = false)
    (ht : isDigitTag t = true) (hv : v.length ≤ 99) :
    execAll (expandField t v) s = exec .fldClose (s.enterField t v) := by
  change execAll ((.fldOpen t :: v.map .fldByte) ++ [.fldClose]) s = _
  rw [execAll_append _ _ s _ (execAll_enterField hf ho ht hv), execAll_cons, exec_eq_next]
  rfl

theorem ne_clear_of_mem_expandField {t : Tag} {v : List Byte} {i : Instr} (h : i ∈ expandField t v) : i ≠ .clear := by
  simp only [expandField, List.mem_append, List.mem_map, List.mem_singleton] at h
  obtain (rfl | ⟨b, -, rfl⟩) | rfl := h <;> simp

/-- A value of 100 characters or more: the first 99 are entered, the hundredth faults and the rest is ignored. -/
theorem execAll_expandField_long {t : Tag} {v : List Byte} {s : State} (hf : s.fault = false) (ho : s.fopen = false)
    (ht : isDigitTag t = true) (hv : 100 ≤ v.length) :
    execAll (expandField t v) s =
      .next ((s.enterField t (v.take 99)).raise .valueTooLong (encode (.fldByte (v.getD 99 0)))) := by
  have htake : (v.take 99).length = 99 := by rw [List.length_take]; omega
  have hsplit : v = v.take 99 ++ v.getD 99 0 :: v.drop 100 := by
    rw [List.getD_eq_getElem v 0 (by omega), ← List.drop_eq_getElem_cons, List.take_append_drop]
  have hexpand : expandField t v = (.fldOpen t :: (v.take 99).map .fldByte) ++
      .fldByte (v.getD 99 0) :: ((v.drop 100).map .fldByte ++ [.fldClose]) := by
    conv_lhs => rw [hsplit]
    simp [expandField]
  have hfull : exec (.fldByte (v.getD 99 0)) (s.enterField t (v.take 99)) =
      .next ((s.enterField t (v.take 99)).raise .valueTooLong (encode (.fldByte (v.getD 99 0)))) := by
    apply exec_fldByte_full <;> simp [State.enterField_eq, hf, htake]
  rw [hexpand, execAll_append _ _ s _ (execAll_enterField hf ho ht htake.le), execAll_cons_of_next _ hfull]
  refine execAll_of_fault rfl fun i hi => ne_clear_of_mem_expandField (t := t) (v := v) ?_
  rw [hexpand]
  exact List.mem_append_right _ (List.mem_cons_of_mem _ hi)

/-- Settles O47: the field is entered with its value, and FLD.CLOSE emits its encoding. -/
theorem fieldAppendsItsEncoding : Obligations.FieldAppendsItsEncoding := by
  intro t v s hinv hf hc ho ht hv hfit
  have henter := State.enterField_eq s t v
  have hclose : exec .fldClose (s.enterField t v) = .next ((s.enterField t v).emitAll (enc t v)).closeField := by
    have hval := State.fieldValue_enterField t v hinv.vbuf_wf
    have htag : (s.enterField t v).ftag = t := by rw [henter]
    rw [exec_fldClose_top, hval, htag] <;> simp [henter, hf, hc, hfit]
  refine ⟨_, (execAll_expandField hf ho ht hv).trans hclose, ?_, ?_⟩
  · rw [State.closeField_output, State.output_emitAll _ _ (by rw [henter]; exact hinv.obuf_wf), henter]
    rfl
  · simp [henter, State.emitAll_eq, State.closeField, ho, Nat.add_assoc]

/-- Settles O48: the frame of the fault at the hundredth character. -/
theorem longFieldFaults : Obligations.LongFieldFaults := by
  intro t v s hf hc ho ht hv
  refine ⟨_, execAll_expandField_long hf ho ht hv, ?_⟩
  simp [State.enterField_eq, State.raise]
  omega

/-! ## COMPOSITE, up to a value that is too long -/

theorem exec_cmpOpen {t : Tag} {s : State} (hf : s.fault = false) (hc : s.copen = false) (ho : s.fopen = false)
    (ht : isDigitTag t = true) : exec (.cmpOpen t) s = .next (s.openComposite t) :=
  exec_of_no_cause (by simp) hf ((firstCause_cmpOpen_eq_none t s).mpr ⟨hc, ho, ht⟩)

/-- A sub-field of the open composite, entered and closed. -/
def State.addSubfield (s : State) (p : Tag × List Byte) : State :=
  ((s.enterField p.1 p.2).cbufAppendAll (enc p.1 (s.enterField p.1 p.2).fieldValue)).closeField

/-- Sub-fields of the open composite, in order. -/
def State.addSubfields (s : State) (subs : List (Tag × List Byte)) : State := subs.foldl State.addSubfield s

theorem State.addSubfield_eq (s : State) (p : Tag × List Byte) :
    s.addSubfield p = { s with
      fopen := false
      ftag := p.1
      flen := 0
      vbuf := Memory.writeAll s.vbuf 0 p.2
      clen := s.clen + p.2.length + 4
      cbuf := Memory.writeAll s.cbuf s.clen (enc p.1 (s.enterField p.1 p.2).fieldValue) } := by
  have hlen : (s.enterField p.1 p.2).flen = p.2.length := by rw [State.enterField_eq]
  rw [State.addSubfield, State.cbufAppendAll_eq, length_enc, State.length_fieldValue, hlen, State.enterField_eq]
  simp [State.closeField, Nat.add_assoc]

/-- Sub-fields change the field's elements and the composite buffer, and count by the length of their encodings. -/
theorem State.addSubfields_frame {s : State} (subs : List (Tag × List Byte)) (ho : s.fopen = false) :
    ∃ tag len value composite, s.addSubfields subs = { s with
      ftag := tag
      flen := len
      vbuf := value
      clen := s.clen + (subs.flatMap fun p => enc p.1 p.2).length
      cbuf := composite } := by
  induction subs generalizing s with
  | nil => exact ⟨_, _, _, _, rfl⟩
  | cons p subs ih =>
    have hadd := s.addSubfield_eq p
    obtain ⟨tag, len, value, composite, h⟩ := ih (s := s.addSubfield p) (by rw [hadd])
    refine ⟨tag, len, value, composite, h.trans ?_⟩
    rw [hadd]
    simp [ho, Nat.add_assoc]

/-- FIELD of a sub-field that fits the open composite. -/
theorem execAll_addSubfield {p : Tag × List Byte} {s : State} (hf : s.fault = false) (hc : s.copen = true)
    (ho : s.fopen = false) (ht : isDigitTag p.1 = true) (hfit : s.clen + p.2.length + 4 ≤ 99) :
    execAll (expandField p.1 p.2) s = .next (s.addSubfield p) := by
  have henter := s.enterField_eq p.1 p.2
  have htag : (s.enterField p.1 p.2).ftag = p.1 := by rw [henter]
  rw [execAll_expandField hf ho ht (by omega), exec_fldClose_composite, htag, State.addSubfield] <;>
    simp [henter, hf, hc, hfit]

/-- The FIELDs of sub-fields that all fit the open composite. -/
theorem execAll_addSubfields {subs : List (Tag × List Byte)} {s : State} (hf : s.fault = false) (hc : s.copen = true)
    (ho : s.fopen = false) (ht : ∀ p ∈ subs, isDigitTag p.1 = true)
    (hfit : s.clen + (subs.flatMap fun p => enc p.1 p.2).length ≤ 99) :
    execAll (subs.flatMap fun p => expandField p.1 p.2) s = .next (s.addSubfields subs) := by
  induction subs generalizing s with
  | nil => rfl
  | cons p subs ih =>
    obtain ⟨htp, hrest⟩ := List.forall_mem_cons.mp ht
    rw [List.flatMap_cons, List.length_append, length_enc] at hfit
    have hadd := s.addSubfield_eq p
    rw [List.flatMap_cons, execAll_append _ _ s _ (execAll_addSubfield hf hc ho htp (by omega))]
    refine ih ?_ ?_ ?_ hrest ?_ <;> rw [hadd]
    · exact hf
    · exact hc
    · simp only
      omega

/-- Settles O56: the sub-fields before the long value go into the composite, the value's hundredth character
faults as in FIELD, and the rest is ignored. -/
theorem compositeWithLongValueFaults : Obligations.CompositeWithLongValueFaults := by
  intro t pre sub post s hf hc ho ht hpre hsub hfit hlong
  have hexpand : expandComposite t (pre ++ sub :: post) =
      .cmpOpen t :: ((pre.flatMap fun p => expandField p.1 p.2) ++ (expandField sub.1 sub.2 ++
        ((post.flatMap fun p => expandField p.1 p.2) ++ [.cmpClose]))) := by simp [expandComposite]
  have hbefore := execAll_addSubfields (s := s.openComposite t) hf rfl ho hpre (by simpa using hfit)
  obtain ⟨tag, len, value, composite, hframe⟩ := State.addSubfields_frame (s := s.openComposite t) pre ho
  have hlongField := execAll_expandField_long (s := (s.openComposite t).addSubfields pre) (by rw [hframe]; exact hf)
    (by rw [hframe]; exact ho) hsub hlong
  have hrest : ∀ i ∈ (post.flatMap fun p => expandField p.1 p.2) ++ [.cmpClose], i ≠ Instr.clear := by
    simp only [List.mem_append, List.mem_flatMap, List.mem_singleton]
    rintro i (⟨p, -, hi⟩ | rfl)
    · exact ne_clear_of_mem_expandField hi
    · simp
  rw [hexpand, execAll_cons_of_next _ (exec_cmpOpen hf hc ho ht), execAll_append _ _ _ _ hbefore,
    execAll_append _ _ _ _ hlongField, execAll_of_fault rfl hrest]
  refine ⟨_, rfl, ?_⟩
  rw [State.enterField_eq, hframe]
  simp [State.raise, State.openComposite]
  omega

end Sys2Proof.Machine
end

section
/-! The composite field multiplexer (42_composite.md): the effect of its two commands, and the sequence of COMPOSITE as
a whole, accepted or at the first sub-field that passes the bound. -/

namespace Sys2Proof.Machine

/-! ## The commands -/

theorem exec_cmpClose {s : State} (hf : s.fault = false) (hc : s.copen = true) (ho : s.fopen = false)
    (hfit : s.olen + s.clen + 4 ≤ Config.outCap) :
    exec .cmpClose s = .next (s.emitAll (enc s.ctag s.compositeValue)).closeComposite :=
  exec_of_no_cause (by simp) hf ((firstCause_cmpClose_eq_none s).mpr ⟨hc, ho, hfit⟩)

/-- Settles O22: CMP.OPEN is accepted, and its rule sets three elements. -/
theorem cmpOpenExecutes : Obligations.CmpOpenExecutes := fun _ _ hf hc ho ht => exec_cmpOpen hf hc ho ht

/-- Settles O23: CMP.CLOSE is accepted, and its rule writes the wrapped composite at the output's count. -/
theorem cmpCloseExecutes : Obligations.CmpCloseExecutes := by
  intro s hf hc ho hfit hw
  refine ⟨_, exec_cmpClose hf hc ho hfit, ?_, fun a => ?_⟩
  · simp [State.emitAll_eq, State.closeComposite, Nat.add_assoc]
  · rw [State.closeComposite_obuf, State.emitAll_eq]
    simpa [Nat.add_assoc] using Memory.read_writeAll s.olen (enc s.ctag s.compositeValue) a hw

/-- A field that does not fit the open composite is refused when it is closed (41_tlv.md R125). -/
theorem exec_fldClose_composite_full {s : State} (hf : s.fault = false) (ho : s.fopen = true) (hc : s.copen = true)
    (hlong : 99 < s.clen + s.flen + 4) :
    exec .fldClose s = .next (s.raise .valueTooLong (encode .fldClose)) := by
  have hcause : firstCause .fldClose s = some .valueTooLong := by simp [firstCause, causes, firstHolding, ho, hc, hlong]
  rw [exec_eq_performed s (by simp), State.unlessFaulted_of_no_fault _ hf, performed_of_cause hcause]

/-! ## The sub-fields in the composite buffer -/

/-- In canonical buffers a sub-field's encoding is appended to the composite, and the buffers stay canonical. -/
theorem State.addSubfield_values {s : State} (p : Tag × List Byte) (hv : Memory.wf s.vbuf = true)
    (hc : Memory.wf s.cbuf = true) :
    Memory.wf (s.addSubfield p).vbuf = true ∧ Memory.wf (s.addSubfield p).cbuf = true ∧
      (s.addSubfield p).compositeValue = s.compositeValue ++ enc p.1 p.2 := by
  have hval := State.fieldValue_enterField p.1 p.2 hv
  have henter := s.enterField_eq p.1 p.2
  refine ⟨?_, ?_, ?_⟩
  · rw [State.addSubfield_eq]
    exact Memory.wf_writeAll 0 _ hv
  · rw [State.addSubfield_eq]
    exact Memory.wf_writeAll s.clen _ hc
  · rw [State.addSubfield, State.closeField_compositeValue, hval,
      State.compositeValue_cbufAppendAll _ _ (by rw [henter]; exact hc), henter]
    rfl

/-- In canonical buffers the composite is extended by the sub-fields' encodings, in the written order. -/
theorem State.compositeValue_addSubfields {s : State} (subs : List (Tag × List Byte)) (hv : Memory.wf s.vbuf = true)
    (hc : Memory.wf s.cbuf = true) :
    (s.addSubfields subs).compositeValue = s.compositeValue ++ subs.flatMap fun p => enc p.1 p.2 := by
  induction subs generalizing s with
  | nil => simp [State.addSubfields]
  | cons p subs ih =>
    obtain ⟨hv', hc', hadd⟩ := State.addSubfield_values p hv hc
    calc (s.addSubfields (p :: subs)).compositeValue
        = (s.addSubfield p).compositeValue ++ subs.flatMap fun p => enc p.1 p.2 := ih hv' hc'
      _ = s.compositeValue ++ (p :: subs).flatMap fun p => enc p.1 p.2 := by
        rw [hadd, List.flatMap_cons, List.append_assoc]

/-- Closing a sub-field leaves its length counter at 0. -/
theorem State.addSubfields_flen {s : State} (subs : List (Tag × List Byte)) (h : s.flen = 0) :
    (s.addSubfields subs).flen = 0 := by
  induction subs generalizing s with
  | nil => exact h
  | cons p subs ih => exact ih (s := s.addSubfield p) rfl

/-! ## COMPOSITE whose sub-fields all fit -/

/-- `COMPOSITE t, subs` is CMP.CLOSE on the composite that holds the sub-fields. -/
theorem execAll_expandComposite {t : Tag} {subs : List (Tag × List Byte)} {s : State} (hf : s.fault = false)
    (hc : s.copen = false) (ho : s.fopen = false) (ht : isDigitTag t = true) (hsubs : ∀ p ∈ subs, isDigitTag p.1 = true)
    (hfit : (subs.flatMap fun p => enc p.1 p.2).length ≤ 99) :
    execAll (expandComposite t subs) s = exec .cmpClose ((s.openComposite t).addSubfields subs) := by
  have hadd := execAll_addSubfields (s := s.openComposite t) hf rfl ho hsubs (by simpa using hfit)
  change execAll (.cmpOpen t :: ((subs.flatMap fun p => expandField p.1 p.2) ++ [.cmpClose])) s = _
  rw [execAll_cons_of_next _ (exec_cmpOpen hf hc ho ht), execAll_append _ _ _ _ hadd, execAll_cons, exec_eq_next]
  rfl

/-- Settles O49: the composite holds the sub-fields' encodings, and CMP.CLOSE emits them wrapped. -/
theorem compositeAppendsItsEncoding : Obligations.CompositeAppendsItsEncoding := by
  intro t subs s hinv hf hc ho ht hsubs hlen hfit
  have hval := State.compositeValue_addSubfields (s := s.openComposite t) subs hinv.vbuf_wf hinv.cbuf_wf
  have hflen := State.addSubfields_flen (s := s.openComposite t) subs (hinv.flen_zero ho)
  obtain ⟨tag, len, value, composite, hframe⟩ := State.addSubfields_frame (s := s.openComposite t) subs ho
  set u := (s.openComposite t).addSubfields subs
  have hzero : len = 0 := by
    rw [hframe] at hflen
    exact hflen
  have hclose : exec .cmpClose u = .next (u.emitAll (enc t (subs.flatMap fun p => enc p.1 p.2))).closeComposite := by
    have htag : u.ctag = t := by rw [hframe]; rfl
    have hempty : (s.openComposite t).compositeValue = [] := rfl
    have hroom : u.olen + u.clen + 4 ≤ Config.outCap := by rw [hframe]; simpa using hfit
    rw [exec_cmpClose (by rw [hframe]; exact hf) (by rw [hframe]; rfl) (by rw [hframe]; exact ho) hroom, hval, htag,
      hempty, List.nil_append]
  refine ⟨_, (execAll_expandComposite hf hc ho ht hsubs hlen).trans hclose, ?_, ?_⟩
  · rw [State.closeComposite_output, State.output_emitAll _ _ (by rw [hframe]; exact hinv.obuf_wf), hframe]
    rfl
  · rw [hframe]
    simp [State.emitAll_eq, State.closeComposite, hzero, hc, Nat.add_assoc]

/-! ## COMPOSITE past the bound -/

/-- The first element of a list with which the pieces laid end to end pass a bound. -/
theorem exists_first_past_bound {α β : Type} {n : Nat} (f : α → List β) {l : List α} (h : n < (l.flatMap f).length) :
    ∃ pre x post, l = pre ++ x :: post ∧ (pre.flatMap f).length ≤ n ∧
      n < (pre.flatMap f).length + (f x).length := by
  induction l using List.reverseRecOn with
  | nil => simp at h
  | append_singleton l x ih =>
    by_cases hl : (l.flatMap f).length ≤ n
    · exact ⟨l, x, [], rfl, hl, by simpa using h⟩
    · obtain ⟨pre, y, post, rfl, hpre, hy⟩ := ih (Nat.lt_of_not_le hl)
      exact ⟨pre, y, post ++ [x], by simp, hpre, hy⟩

/-- FIELD of a sub-field that does not fit the open composite: entered, and refused at its FLD.CLOSE. -/
theorem execAll_expandField_full {p : Tag × List Byte} {s : State} (hf : s.fault = false) (hc : s.copen = true)
    (ho : s.fopen = false) (ht : isDigitTag p.1 = true) (hv : p.2.length ≤ 99) (hlong : 99 < s.clen + p.2.length + 4) :
    execAll (expandField p.1 p.2) s =
      .next ((s.enterField p.1 p.2).raise .valueTooLong (encode .fldClose)) := by
  rw [execAll_expandField hf ho ht hv]
  apply exec_fldClose_composite_full <;> simp [State.enterField_eq, hf, hc, hlong]

/-- Where a sub-field's FIELD ends in the fault state, so does `COMPOSITE`, and the commands after it are ignored. -/
theorem execAll_expandComposite_of_fault {t : Tag} {pre post : List (Tag × List Byte)} {sub : Tag × List Byte}
    {s u : State} (hf : s.fault = false) (hc : s.copen = false) (ho : s.fopen = false) (ht : isDigitTag t = true)
    (hpre : ∀ p ∈ pre, isDigitTag p.1 = true) (hfit : (pre.flatMap fun p => enc p.1 p.2).length ≤ 99)
    (hsub : execAll (expandField sub.1 sub.2) ((s.openComposite t).addSubfields pre) = .next u)
    (hu : u.fault = true) : execAll (expandComposite t (pre ++ sub :: post)) s = .next u := by
  have hexpand : expandComposite t (pre ++ sub :: post) =
      .cmpOpen t :: ((pre.flatMap fun p => expandField p.1 p.2) ++ (expandField sub.1 sub.2 ++
        ((post.flatMap fun p => expandField p.1 p.2) ++ [.cmpClose]))) := by simp [expandComposite]
  have hbefore := execAll_addSubfields (s := s.openComposite t) hf rfl ho hpre (by simpa using hfit)
  have hrest : ∀ i ∈ (post.flatMap fun p => expandField p.1 p.2) ++ [.cmpClose], i ≠ Instr.clear := by
    simp only [List.mem_append, List.mem_flatMap, List.mem_singleton]
    rintro i (⟨p, -, hi⟩ | rfl)
    · exact ne_clear_of_mem_expandField hi
    · simp
  rw [hexpand, execAll_cons_of_next _ (exec_cmpOpen hf hc ho ht), execAll_append _ _ _ _ hbefore,
    execAll_append _ _ _ _ hsub, execAll_of_fault hu hrest]

/-- Settles O50: the sub-fields before the first that passes the bound go into the composite, that one is refused when
it is closed, and the rest is ignored. -/
theorem longCompositeFaults : Obligations.LongCompositeFaults := by
  intro t subs s hf hc ho ht hsubs hlong
  obtain ⟨pre, sub, post, rfl, hpre, hpast⟩ := exists_first_past_bound _ hlong
  obtain ⟨hdigits, hshort⟩ := hsubs sub (by simp)
  obtain ⟨tag, len, value, composite, hframe⟩ := State.addSubfields_frame (s := s.openComposite t) pre ho
  have hfull := execAll_expandField_full (s := (s.openComposite t).addSubfields pre) (p := sub)
    (by rw [hframe]; exact hf) (by rw [hframe]; rfl) (by rw [hframe]; exact ho) hdigits hshort
    (by rw [hframe]; simpa [Nat.add_assoc] using hpast)
  refine ⟨_, pre, sub, post, execAll_expandComposite_of_fault hf hc ho ht
    (fun p hp => (hsubs p (by simp [hp])).1) hpre hfull rfl, rfl, hpre, hpast, ?_⟩
  rw [State.enterField_eq, hframe]
  simp [State.raise, State.openComposite]

end Sys2Proof.Machine
end

section
/-! The output and control commands (43_output_control.md): the effect of each of them, and the sequence of
CHECKSUM. -/

namespace Sys2Proof.Machine

/-! ## The commands -/

theorem exec_outByte {s : State} (b : Byte) (hf : s.fault = false) (ho : s.fopen = false) (hc : s.copen = false)
    (hfit : s.olen + 1 ≤ Config.outCap) : exec (.outByte b) s = .next (s.emit b) :=
  exec_of_no_cause (by simp) hf ((firstCause_outByte_eq_none b s).mpr ⟨ho, hc, hfit⟩)

theorem exec_crcEmit {s : State} (hf : s.fault = false) (ho : s.fopen = false) (hc : s.copen = false)
    (hfit : s.olen + 4 ≤ Config.outCap) : exec .crcEmit s = .next (s.emitRawAll (hex s.crc)) :=
  exec_of_no_cause (by simp) hf ((firstCause_crcEmit_eq_none s).mpr ⟨ho, hc, hfit⟩)

/-- Settles O24: OUT.BYTE is accepted, and its rule writes one byte at the output's count. -/
theorem outByteExecutes : Obligations.OutByteExecutes := fun b s hf ho hc hfit hw =>
  ⟨s.emit b, exec_outByte b hf ho hc hfit, rfl, fun a => Memory.read_write s.olen b a hw⟩

/-- Settles O25: the meaning of NOP is the identity, with no test of the fault state before it. -/
theorem nopChangesNothing : Obligations.NopChangesNothing := fun _ => rfl

/-- Settles O26: the meaning of CLEAR is the block's reset, with no test of the fault state before it. -/
theorem clearRestoresReset : Obligations.ClearRestoresReset := fun _ => rfl

/-! ## CHECKSUM -/

/-- OUT.BYTE of each character of a string that fits the output. -/
theorem execAll_map_outByte {e : List Byte} {s : State} (hf : s.fault = false) (ho : s.fopen = false)
    (hc : s.copen = false) (hfit : s.olen + e.length ≤ Config.outCap) :
    execAll (e.map .outByte) s = .next (s.emitAll e) := by
  induction e generalizing s with
  | nil => rfl
  | cons b e ih =>
    rw [List.length_cons] at hfit
    rw [List.map_cons, execAll_cons_of_next _ (exec_outByte b hf ho hc (by omega))]
    exact ih (s := s.emit b) hf ho hc (by rw [State.emit_olen]; omega)

/-- A tapped string keeps the register the checksum of the output. -/
theorem State.crc_emitAll_of_crc_eq_crc16 {s : State} (e : List Byte) (hcrc : s.crc = crc16 s.output) :
    (s.emitAll e).crc = crc16 (s.output ++ e) := by
  rw [State.emitAll_eq, crc16_append, hcrc]

/-- A string through the tap and then CRC.EMIT: behind the string stands the rendering of the register that took it. -/
theorem execAll_outBytes_crcEmit {e : List Byte} {s : State} (hf : s.fault = false) (ho : s.fopen = false)
    (hc : s.copen = false) (hfit : s.olen + e.length + 4 ≤ Config.outCap) :
    execAll (e.map .outByte ++ [.crcEmit]) s = .next ((s.emitAll e).emitRawAll (hex (s.emitAll e).crc)) := by
  have hemit : exec .crcEmit (s.emitAll e) = .next ((s.emitAll e).emitRawAll (hex (s.emitAll e).crc)) := by
    apply exec_crcEmit <;> rw [State.emitAll_eq] <;> assumption
  rw [execAll_append _ _ s _ (execAll_map_outByte hf ho hc (by omega)), execAll_cons_of_next _ hemit]
  rfl

/-- Settles O51: CHECKSUM is its four leading characters through the tap and then CRC.EMIT, which renders the checksum
of the output with those characters; the rendering itself stays untapped. -/
theorem checksumFieldClosesPayload : Obligations.ChecksumFieldClosesPayload := by
  intro t s hinv hf hc ho hcrc hfit
  set e : List Byte := [tagFirst t, tagSecond t, 0x30, 0x34]
  have hexec : execAll (expandChecksum t) s = .next ((s.emitAll e).emitRawAll (hex (s.emitAll e).crc)) :=
    execAll_outBytes_crcEmit (e := e) hf ho hc hfit
  have hwf : Memory.wf (s.emitAll e).obuf = true := by
    rw [State.emitAll_eq]
    exact Memory.wf_writeAll s.olen e hinv.obuf_wf
  refine ⟨_, hexec, ?_, ?_⟩
  · rw [State.emitRawAll_eq, State.emitAll_eq]
    exact hf
  · rw [State.output_emitRawAll _ _ hwf, State.output_emitAll _ _ hinv.obuf_wf,
      State.crc_emitAll_of_crc_eq_crc16 e hcrc]

end Sys2Proof.Machine
end

section
/-! Exceptions (60_exceptions.md): which cause a command raises, what a fault leaves alone, and the two ways out of the
fault state. -/

namespace Sys2Proof.Machine

/-! ## Raising a fault -/

/-- The rule of an accepted command names no fault element. -/
theorem fault_accepted {s : State} (i : Instr) (hf : s.fault = false) : (accepted i s).fault = false := by
  cases i with
  | crcEmit => simp [accepted, State.emitRawAll_eq, hf]
  | fldClose => cases hc : s.copen <;> simp [accepted, State.emitAll_eq, State.cbufAppendAll_eq, hf, hc]
  | cmpClose => simp [accepted, State.emitAll_eq, hf]
  | clear => rfl
  | nop | crcInit | crcByte b | fldOpen x | fldByte b | cmpOpen x | outByte b => exact hf

theorem firstCause_clear (s : State) : firstCause .clear s = none := rfl

/-- A command with a cause raises the first one. -/
theorem exec_of_cause {i : Instr} {s : State} {c : FaultCode} (hf : s.fault = false) (hc : firstCause i s = some c) :
    exec i s = .next (s.raise c (encode i)) := by
  have hi : i ≠ .clear := by
    rintro rfl
    cases (firstCause_clear s).symm.trans hc
  rw [exec_eq_performed s hi, State.unlessFaulted_of_no_fault _ hf, performed_of_cause hc]

/-- Settles O30: the first cause is raised, and without one the rule performed raises nothing. -/
theorem faultCausesAndPriority : Obligations.FaultCausesAndPriority := by
  intro i s hf
  refine ⟨fun c hc => exec_of_cause hf hc, fun hc => ⟨_, exec_eq_next i s, ?_⟩⟩
  obtain ⟨hf', -, -⟩ | ⟨c, -, hc', -⟩ | ⟨-, -, hacc⟩ := exec_cases (exec_eq_next i s)
  · cases hf.symm.trans hf'
  · cases hc.symm.trans hc'
  · rw [hacc]
    exact fault_accepted i hf

/-! ## Faults are precise -/

/-- A word, legal or illegal, that leads into the fault state does nothing but raise a fault with that word. -/
theorem execute_eq_raise_of_fault {s t : State} {w : Word} (hf : s.fault = false) (h : execute w s = .next t)
    (ht : t.fault = true) : ∃ c, t = s.raise c w := by
  cases hd : decode w with
  | error e =>
    rw [execute_illegal hf hd] at h
    cases h
    exact ⟨_, rfl⟩
  | ok i =>
    rw [execute_of_ok hd] at h
    obtain ⟨hf', -, -⟩ | ⟨c, -, -, hraise⟩ | ⟨-, -, rfl⟩ := exec_cases h
    · cases hf.symm.trans hf'
    · exact ⟨c, encodeInvertsDecode w i hd ▸ hraise⟩
    · cases (fault_accepted i hf).symm.trans ht

/-- The codes are those of 60_exceptions.md R201. -/
theorem faultNumber_mem (c : FaultCode) : faultNumber c ∈ ([1, 2, 3, 4, 5] : List (BitVec 4)) := by
  cases c <;> decide

/-- Settles O31: the step executes the word, which raises a fault and does nothing else. -/
theorem faultsArePrecise : Obligations.FaultsArePrecise := by
  intro s t rest w hf h ht
  rw [step_cmdWrite] at h
  obtain ⟨c, rfl⟩ := execute_eq_raise_of_fault (s := { s with bus := rest, resp := .done }) hf h ht
  exact ⟨rfl, faultNumber_mem c⟩

/-! ## In the fault state -/

/-- Settles O8: the gate of the fault state. -/
theorem faultStateIgnoresCommands : Obligations.FaultStateIgnoresCommands := by
  intro i s hf hi
  rw [exec_eq_performed s hi, State.unlessFaulted_of_fault _ hf]

/-- In the fault state the CMD write of a word other than CLEAR's is answered and ignored. -/
theorem step_cmdWrite_of_fault {s : State} {w : Word} (rest : List BusEvent) (hf : s.fault = true)
    (hw : w ≠ 0x10000000) : step { s with bus := cmdWrite w :: rest } = .next { s with bus := rest, resp := .done } := by
  rw [step_cmdWrite]
  exact execute_of_fault hf hw

/-- Settles O7, by induction on the words; each is ignored and leaves the fault state to the next. -/
theorem faultStateIgnoresEveryWord : Obligations.FaultStateIgnoresEveryWord := by
  intro ws
  induction ws with
  | nil => exact fun _ _ _ => rfl
  | cons w ws ih =>
    intro s hf hws
    obtain ⟨hw, hrest⟩ := List.forall_mem_cons.mp hws
    rw [List.length_cons, List.map_cons, run_succ_of_step _ (step_cmdWrite_of_fault _ hf hw)]
    simpa using ih { s with resp := .done } hf hrest

/-! ## Out of the fault state -/

/-- An accepted write leads out of the fault state only with CLEAR's word, which resets the block. -/
theorem execute_leaves_fault {s t : State} {w : Word} (hf : s.fault = true) (h : execute w s = .next t)
    (ht : t.fault = false) : w = 0x10000000 ∧ t = s.resetBlock := by
  by_cases hw : w = 0x10000000
  · subst hw
    rw [execute_clearWord] at h
    cases h
    exact ⟨rfl, rfl⟩
  · rw [execute_of_fault hf hw] at h
    cases h
    cases hf.symm.trans ht

/-- The events that lead out of the fault state: CLEAR and the hardware reset input, both resetting the block. -/
theorem performEvent_leaves_fault {e : BusEvent} {s t : State} (hf : s.fault = true) (h : performEvent e s = .next t)
    (ht : t.fault = false) : t = t.resetBlock ∧ (e = cmdWrite 0x10000000 ∨ ∃ p, e = .reset p) := by
  match e with
  | .access .host (.read off n) =>
    rw [performEvent, performAccess_read] at h
    cases h
    cases hf.symm.trans ht
  | .access .host (.write off n v) =>
    rw [performEvent] at h
    obtain ⟨hacc, hw⟩ | ⟨-, hw⟩ := performAccess_write off n v s <;> rw [hw] at h
    · obtain ⟨rfl, rfl⟩ := execute_leaves_fault (s := s.answer .done) hf h ht
      obtain ⟨rfl, rfl⟩ : n = 4 ∧ off = 0 := by simpa [writeAccepted] using hacc
      exact ⟨rfl, .inl rfl⟩
    · cases h
      cases hf.symm.trans ht
  | .access .other a => cases h
  | .reset p =>
    cases h
    refine ⟨?_, .inr ⟨p, rfl⟩⟩
    obtain ⟨-, hr⟩ | ⟨-, hr⟩ := performReset_cases p s <;> rw [hr] <;> rfl

/-- Settles O32: a quiet step stays in the fault state, so the step performed an event that leads out of it. -/
theorem faultEndsOnlyByReset : Obligations.FaultEndsOnlyByReset := by
  intro s t hf h ht
  obtain ⟨-, hq⟩ | ⟨e, rest, hbus, he⟩ := step_cases s
  · rw [hq] at h
    cases h
    cases hf.symm.trans ht
  · obtain ⟨hreset, rfl | ⟨p, rfl⟩⟩ := performEvent_leaves_fault (s := { s with bus := rest }) hf (he ▸ h) ht
    · exact ⟨hreset, .inl ⟨rest, hbus⟩⟩
    · exact ⟨hreset, .inr ⟨p, rest, hbus⟩⟩

/-! ## A second host -/

/-- Settles O38: the event is performed, and performing another master's access is refusing it. -/
theorem secondHostRefused : Obligations.SecondHostRefused := by
  intro s rest a
  rw [step_of_event rfl]
  rfl

end Sys2Proof.Machine
end

section
/-! Reset and hazards (70_reset_and_hazards.md): the hardware reset input, what the host reads in the reset state, and the
bounded completion of every event of the one host. -/

namespace Sys2Proof.Machine

/-! ## The hardware reset input -/

theorem step_reset (s : State) (rest : List BusEvent) (pending : Option Access) :
    step { s with bus := .reset pending :: rest } = .next (performReset pending { s with bus := rest }) := by
  rw [step_of_event rfl]
  rfl

/-- Settles O41: the block is reset whether or not an access was pending; a pending one draws its response. -/
theorem hardwareResetRestoresReset : Obligations.HardwareResetRestoresReset := fun s rest =>
  ⟨step_reset s rest none, fun a => ⟨Config.lostResponse s.drawn, step_reset s rest (some a)⟩⟩

/-! ## Reads in the reset state -/

/-- The readable registers by their offsets, with the values of 70_reset_and_hazards.md R231. -/
def resetRegisters : List (Offset × Word) :=
  [(0x004, 0), (0x008, 0x0000FFFF), (0x00C, 0), (0x010, 0), (0x014, 0), (0x018, 0), (0x01C, 0), (0x020, 0)]

theorem readableWord_of_mem_resetRegisters :
    ∀ p ∈ resetRegisters, p.1.toNat % 4 = 0 ∧ readableWord State.reset p.1.toNat = some p.2 := by
  intro p hp
  fin_cases hp <;> exact ⟨rfl, rfl⟩

/-- Settles O42: the registers by what the map shows at reset, the window by its count of 0. -/
theorem resetAsTheHostSeesIt : Obligations.ResetAsTheHostSeesIt := by
  refine ⟨fun p hp rest => ?registers, fun i rest hi => ?window⟩
  case registers =>
    obtain ⟨haligned, hword⟩ := readableWord_of_mem_resetRegisters p hp
    exact step_read_register rest haligned hword
  case window =>
    have hread := outputWindowReads State.reset rest i hi
    rwa [State.reset_olen, if_neg (Nat.not_lt_zero i)] at hread

/-! ## Every event of the one host completes -/

/-- A word, legal or illegal, completes and leaves the events waiting behind it where they are. -/
theorem execute_completes (w : Word) (s : State) : ∃ t, execute w s = .next t ∧ t.bus = s.bus := by
  cases hd : decode w with
  | error e =>
    refine ⟨_, execute_of_error hd s, ?_⟩
    obtain ⟨-, hgate⟩ | ⟨-, hgate⟩ := State.unlessFaulted_cases s (s.raise .illegalCommand w) <;> simp [hgate]
  | ok i =>
    have hexec := exec_eq_next i s
    obtain ⟨hbus, -, -⟩ := commandsLeavePortAlone i s _ hexec
    exact ⟨_, (execute_of_ok hd s).trans hexec, hbus⟩

theorem performAccess_completes (a : Access) (s : State) : ∃ t, performAccess a s = .next t ∧ t.bus = s.bus := by
  cases a with
  | read off n => exact ⟨_, performAccess_read off n s, rfl⟩
  | write off n v =>
    obtain ⟨-, hw⟩ | ⟨-, hw⟩ := performAccess_write off n v s <;> rw [hw]
    · exact execute_completes v (s.answer .done)
    · exact ⟨_, rfl, rfl⟩

theorem performReset_bus (pending : Option Access) (s : State) : (performReset pending s).bus = s.bus := by
  cases pending <;> rfl

/-- Only an access of a second host is refused; every other event completes. -/
theorem performEvent_completes {e : BusEvent} (s : State) (h : ∀ a, e ≠ .access .other a) :
    ∃ t, performEvent e s = .next t ∧ t.bus = s.bus := by
  match e with
  | .access .host a => exact performAccess_completes a s
  | .access .other a => exact absurd rfl (h a)
  | .reset pending => exact ⟨_, rfl, performReset_bus pending s⟩

/-- Settles O39, by induction on the events waiting: a step completes the oldest and leaves the others to the run. -/
theorem everyRunCompletes : Obligations.EveryRunCompletes := by
  unfold Obligations.EveryRunCompletes State.OneHost
  intro s
  induction hbus : s.bus generalizing s with
  | nil => exact fun _ => ⟨s, rfl, hbus⟩
  | cons e rest ih =>
    intro hone
    obtain ⟨he, hrest⟩ := List.forall_mem_cons.mp hone
    obtain ⟨t, hperform, ht⟩ := performEvent_completes { s with bus := rest } he
    have hstep : step s = .next t := (step_of_event hbus).trans hperform
    rw [List.length_cons, run_succ_of_step _ hstep]
    exact ih t ht hrest

end Sys2Proof.Machine
end
